-- ==== Sys2Proof/Word.lean ====
section
/-!
DEFINITION. The word types of the Shipovnik CORE engine (00_scope.md R12, 10_state.md R22, R42).
-/

namespace Sys2Proof

/-- One byte of a byte buffer (R12, "`BUF.byte[o]` is the byte at offset o"). -/
abbrev Byte := BitVec 8

/-- One 16-bit element of SIG (R42). -/
abbrev Half := BitVec 16

/-- One 32-bit bus word: a command word, a register, an element of ENT or a word of a big-integer
register (R12, R6 WORDBITS = 32). -/
abbrev Word := BitVec 32

end Sys2Proof
end

