-- ==== Sys2Proof/Syntax.lean ====
section
/-!
DEFINITION. The command set: one constructor of `Instr` per row of spec/opcode_table.json
(30_encoding.md R93), with the operands its format gives it (R91, R92).
-/

namespace Sys2Proof

/-- The big-integer register selected by field d or s of a command word (R91: 0 = BNA, 1 = BNB). -/
inductive BnSel where
  | bna
  | bnb
  deriving DecidableEq, Repr

/-- The key vector selected by field s of PWT (R91: 0 = VA, 1 = VB). -/
inductive VecSel where
  | va
  | vb
  deriving DecidableEq, Repr

/-- The fifteen commands of rule R93. `d` is the destination, `s` the source, `k` the shift distance
in words (R92: imm16, not scaled, not signed). -/
inductive Instr where
  | nop
  | zeroize
  | piota
  | pshuf
  | papply
  | ppack
  | punpk
  | pwt (s : VecSel)
  | syn
  | bnLdh (d : BnSel)
  | bnMulw (d : BnSel)
  | bnDiv3 (d s : BnSel)
  | bnCopy (d s : BnSel)
  | bnShrw (d : BnSel) (k : Nat)
  | chal
  deriving DecidableEq, Repr

end Sys2Proof
end

