-- ==== Sys2Proof/WellFormed.lean ====
section
/-!
DEFINITION. Which terms of `Instr` a command word can carry. Every selector is well formed by its
type; the one check is that the shift distance of BN_SHRW fits its 16-bit field (30_encoding.md R92).
-/

namespace Sys2Proof

/-- Every operand fits the field its format gives it (R91, R92: "0 ≤ k ≤ 65535"). -/
def wellFormed : Instr → Bool
  | .nop => true
  | .zeroize => true
  | .piota => true
  | .pshuf => true
  | .papply => true
  | .ppack => true
  | .punpk => true
  | .pwt _ => true
  | .syn => true
  | .bnLdh _ => true
  | .bnMulw _ => true
  | .bnDiv3 _ _ => true
  | .bnCopy _ _ => true
  | .bnShrw _ k => decide (k < 65536)
  | .chal => true

end Sys2Proof
end

