-- ==== Sys2Proof/Decode.lean ====
section
/-!
DEFINITION. Decoding and encoding of the 32-bit command word (30_encoding.md R90 to R96). `decode` is
total: every word is one command or is rejected by name.
-/

namespace Sys2Proof

/-! ## Fields of a command word (R91) -/

/-- op, bits [7:0]. -/
def opField (c : Word) : BitVec 8 := c.extractLsb' 0 8

/-- d, bit [8]. -/
def dField (c : Word) : BitVec 1 := c.extractLsb' 8 1

/-- s, bit [9]. -/
def sField (c : Word) : BitVec 1 := c.extractLsb' 9 1

/-- imm16, bits [31:16]. -/
def immField (c : Word) : BitVec 16 := c.extractLsb' 16 16

/-- The big-integer register a selector bit names (R91: 0 = BNA, 1 = BNB). -/
def bnSelOf (b : BitVec 1) : BnSel := if b = 0 then .bna else .bnb

/-- The vector the selector bit of PWT names (R91: 0 = VA, 1 = VB). -/
def vecSelOf (b : BitVec 1) : VecSel := if b = 0 then .va else .vb

/-! ## The opcode map (R93) -/

/-- One row of the opcode map: a word with this `op` is the command `build` makes of it when
`c &&& mask = pattern`, and illegal otherwise (R96). -/
structure OpRow where
  op : BitVec 8
  pattern : Word
  mask : Word
  build : Word → Instr

/-- The fifteen rows of rule R93, in its order. -/
def opRows : List OpRow :=
  [ { op := 0x00, pattern := 0x00000000, mask := 0xFFFFFFFF, build := fun _ => .nop },
    { op := 0x01, pattern := 0x00000001, mask := 0xFFFFFFFF, build := fun _ => .zeroize },
    { op := 0x10, pattern := 0x00000010, mask := 0xFFFFFFFF, build := fun _ => .piota },
    { op := 0x11, pattern := 0x00000011, mask := 0xFFFFFFFF, build := fun _ => .pshuf },
    { op := 0x12, pattern := 0x00000012, mask := 0xFFFFFFFF, build := fun _ => .papply },
    { op := 0x13, pattern := 0x00000013, mask := 0xFFFFFFFF, build := fun _ => .ppack },
    { op := 0x14, pattern := 0x00000014, mask := 0xFFFFFFFF, build := fun _ => .punpk },
    { op := 0x15, pattern := 0x00000015, mask := 0xFFFFFDFF, build := fun c => .pwt (vecSelOf (sField c)) },
    { op := 0x20, pattern := 0x00000020, mask := 0xFFFFFFFF, build := fun _ => .syn },
    { op := 0x30, pattern := 0x00000030, mask := 0xFFFFFEFF, build := fun c => .bnLdh (bnSelOf (dField c)) },
    { op := 0x31, pattern := 0x00000031, mask := 0xFFFFFEFF, build := fun c => .bnMulw (bnSelOf (dField c)) },
    { op := 0x32, pattern := 0x00000032, mask := 0xFFFFFCFF,
      build := fun c => .bnDiv3 (bnSelOf (dField c)) (bnSelOf (sField c)) },
    { op := 0x33, pattern := 0x00000033, mask := 0xFFFFFCFF,
      build := fun c => .bnCopy (bnSelOf (dField c)) (bnSelOf (sField c)) },
    { op := 0x34, pattern := 0x00000034, mask := 0x0000FEFF,
      build := fun c => .bnShrw (bnSelOf (dField c)) (immField c).toNat },
    { op := 0x40, pattern := 0x00000040, mask := 0xFFFFFFFF, build := fun _ => .chal } ]

/-- Why a word is `illegal` (R95). -/
inductive DecodeError where
  /-- The op field is none of the fifteen listed values. -/
  | unlistedOpcode (op : BitVec 8)
  /-- The op field is listed and a must-be-zero bit of its format is 1. -/
  | reservedBits (c : Word)
  deriving DecidableEq, Repr

/-- Rule R96: take the row of the op field; without one the word is illegal; if a must-be-zero bit is
set the word is illegal; otherwise it is the row's command. -/
def decode (c : Word) : Except DecodeError Instr :=
  match opRows.find? (fun r => r.op == opField c) with
  | none => .error (.unlistedOpcode (opField c))
  | some r => if c &&& r.mask = r.pattern then .ok (r.build c) else .error (.reservedBits c)

/-- The instruction the decoder reads from an instruction of `nbits` bits whose bits are `w`. A command
is one 32-bit word, written whole to CMD (R90), so bit 0 of `w` is bit 0 of the command word. -/
def decodeTableWord (nbits w : Nat) : Option Instr :=
  match decode (BitVec.ofNat 32 (w % 2 ^ nbits)) with
  | .ok i => some i
  | .error _ => none

/-! ## Encoding (R91, R93) -/

/-- The selector bit of a big-integer register (R91). -/
def bnBit : BnSel → BitVec 1
  | .bna => 0
  | .bnb => 1

/-- The selector bit of a key vector (R91). -/
def vecBitSel : VecSel → BitVec 1
  | .va => 0
  | .vb => 1

/-- The op value of each command (R93). -/
def opcode : Instr → BitVec 8
  | .nop => 0x00
  | .zeroize => 0x01
  | .piota => 0x10
  | .pshuf => 0x11
  | .papply => 0x12
  | .ppack => 0x13
  | .punpk => 0x14
  | .pwt _ => 0x15
  | .syn => 0x20
  | .bnLdh _ => 0x30
  | .bnMulw _ => 0x31
  | .bnDiv3 _ _ => 0x32
  | .bnCopy _ _ => 0x33
  | .bnShrw _ _ => 0x34
  | .chal => 0x40

/-- A command word from its fields, bits [15:10] reserved zero (R91). -/
def packFields (imm : BitVec 16) (s d : BitVec 1) (op : BitVec 8) : Word :=
  imm ++ (0 : BitVec 6) ++ s ++ d ++ op

/-- The command word of an instruction; a field its format does not use is 0 (R91). -/
def encode : Instr → Word
  | .nop => packFields 0 0 0 (opcode .nop)
  | .zeroize => packFields 0 0 0 (opcode .zeroize)
  | .piota => packFields 0 0 0 (opcode .piota)
  | .pshuf => packFields 0 0 0 (opcode .pshuf)
  | .papply => packFields 0 0 0 (opcode .papply)
  | .ppack => packFields 0 0 0 (opcode .ppack)
  | .punpk => packFields 0 0 0 (opcode .punpk)
  | .pwt s => packFields 0 (vecBitSel s) 0 (opcode (.pwt s))
  | .syn => packFields 0 0 0 (opcode .syn)
  | .bnLdh d => packFields 0 0 (bnBit d) (opcode (.bnLdh d))
  | .bnMulw d => packFields 0 0 (bnBit d) (opcode (.bnMulw d))
  | .bnDiv3 d s => packFields 0 (bnBit s) (bnBit d) (opcode (.bnDiv3 d s))
  | .bnCopy d s => packFields 0 (bnBit s) (bnBit d) (opcode (.bnCopy d s))
  | .bnShrw d k => packFields (BitVec.ofNat 16 k) 0 (bnBit d) (opcode (.bnShrw d k))
  | .chal => packFields 0 0 0 (opcode .chal)

end Sys2Proof
end

