-- ==== Sys2Proof/Config.lean ====
section
/-!
DEFINITION. What the hardware fixes (00_scope.md R3, R5, R6; 10_state.md R24 to R26) and the one value the
spec leaves open: the content of the matrix memory HM after a reset (10_state.md R51,
93_implementation_defined.md U17).
-/

namespace Sys2Proof.Config

/-- Code length N, the length in bits of a key vector (R3). -/
def codeLength : Nat := 2896

/-- Code dimension K (R3); by R5 also R = N − K, the number of matrix rows and of bits in a row. -/
def codeDim : Nat := 1448

/-- Secret-vector Hamming weight W (R3). No command reads it (R26). -/
def weightW : Nat := 318

/-- Round count DELTA, the number of ternary challenge digits (R3). -/
def delta : Nat := 219

/-- Hash output width in bytes (R3). -/
def hashBytes : Nat := 64

/-- Size in bytes of a packed permutation, SIGMA_PACKED_BYTES (R4). -/
def packedBytes : Nat := 4344

/-- Capacity in words of BNA (R6). -/
def capA : Nat := 32

/-- Capacity in words of BNB (R6). -/
def capB : Nat := 16

/-- 3^20, the single-word power of three that CHAL multiplies by ten times (R6). -/
def pow20 : Word := 0xCFD41B91

/-- 3^19, the final partial power of CHAL (R6). -/
def pow19 : Word := 0x4546B3DB

/-- The divide-by-3 reciprocal floor(2^32 / 3) (R6). -/
def recip : Nat := 0x55555555

/-- The constant of register ID (R24). -/
def idWord : Word := 0x53485031

/-- The constant of register PARAM0: K in the upper half, N in the lower (R25). -/
def param0Word : Word := 0x05A80B50

/-- The constant of register PARAM1: DELTA in the upper half, W in the lower (R26). -/
def param1Word : Word := 0x00DB013E

/-- FREE VALUE (assumption log 1). What byte `offset` of HM holds after reset number `epoch` as long
as the host has not written it: "each bit may hold any value after reset, and may differ from reset
to reset" (R51). It has no body, so nothing can be proved of its value. -/
opaque hmReset (epoch offset : Nat) : Byte

end Sys2Proof.Config
end

