-- ==== Sys2Proof/Machine/State.lean ====
section
/-!
DEFINITION. The state of the machine: every register and buffer of 10_state.md R20 to R52 as plain data, the
two agents' interleaving (00_scope.md R10, 20_memory.md R75), and the state right after reset (R51).
-/

namespace Sys2Proof.Machine

/-- Memory: the bytes of the buffers HASH, CH, VA, VB, SY, SIG, PK, ENT and HM, keyed by their bus byte
address (20_memory.md R66, R67, R69). Only bytes that differ from what an unlisted address reads as are
listed, in strictly rising order of address (`Memory.wf` in Machine/Ops.lean). -/
abbrev Memory := List Host.Cell

/-- The width of a host access (20_memory.md R61): only `word`, an aligned 32-bit access, exists; the
others are the refused ones the rule names. -/
inductive Width where
  | byte
  | half
  | word
  | burst
  deriving DecidableEq, Repr

/-- What happens next to the engine, in the one order the bus delivers (00_scope.md R10, 20_memory.md
R75): a host read or write, a reset, or the engine's own turn. -/
inductive Event where
  /-- `MemRead(addr, width)` (R62). -/
  | read (addr : BitVec 19) (width : Width)
  /-- `MemWrite(addr, width, value)` (R62). -/
  | write (addr : BitVec 19) (width : Width) (value : Word)
  /-- The reset input (70_reset_and_hazards.md R210, R211). -/
  | reset
  /-- The engine's step, enabled exactly while BUSY = 1 (45_control.md R170). -/
  | engine
  deriving DecidableEq, Repr

/-- The response to one host access (20_memory.md R60): a refused access carries no data word. -/
inductive Reply where
  /-- A read answered OKAY with this word. -/
  | data (value : Word)
  /-- A write answered OKAY. -/
  | okay
  /-- A refused access, answered ERROR. -/
  | error
  deriving DecidableEq, Repr

/-- The fault classes of 60_exceptions.md R181. -/
inductive ErrCode where
  | illCmd
  | cap
  | odd
  | pkLen
  | index
  | noMat
  deriving DecidableEq, Repr

/-- Reasons for which the machine would stop for good: there is none. "No behaviour of this engine is
`stuck`: every accepted command completes or faults, and the FAULT state is left by a host write"
(93_implementation_defined.md); a command fault is a next state (60_exceptions.md R183) and a refused bus
access changes nothing (R190). The type is empty, so no step can end in a fault. -/
inductive Fault where
  deriving DecidableEq, Repr

/-- Reasons for which an instruction has no meaning in this model. -/
inductive Refusal where
  /-- Raised by an arm of `exec` whose instruction has no meaning yet. No arm raises it. Safe: the model
  stops where the hardware goes on. -/
  | notModelled (mnemonic : String)
  deriving DecidableEq, Repr

/-- The machine's state. The constants ID, PARAM0 and PARAM1 (R24 to R26) are no state (R11) and stand in
Config.lean; reserved register bits are not stored, they read 0 and ignore writes (R22). -/
structure State where
  /-- CMD, 32 bits: the last accepted command word (R27). -/
  cmd : Word
  /-- STATUS.BUSY, bit 0 (R28). -/
  busy : Bool
  /-- STATUS.DONE, bit 1 (R28). -/
  done : Bool
  /-- STATUS.ERR, bit 2 (R28). -/
  err : Bool
  /-- STATUS.ERRCODE, bits [15:8] (R28, R181). -/
  errCode : BitVec 8
  /-- CTRL.IE_DONE, bit 0 (R29). -/
  ieDone : Bool
  /-- CTRL.IE_ERR, bit 1 (R29). -/
  ieErr : Bool
  /-- CTRL.MLOCK, bit 8 (R29); STATUS.MLOCK, bit 3, is a view of it (R28). -/
  mlock : Bool
  /-- ERRINFO, 32 bits (R30). -/
  errInfo : Word
  /-- OPW, 32 bits (R31). -/
  opw : Word
  /-- REM, bits [1:0] (R32). -/
  rem : BitVec 2
  /-- LENA, bits [5:0] (R33). -/
  lenA : BitVec 6
  /-- LENB, bits [5:0] (R33). -/
  lenB : BitVec 6
  /-- PLEN, bits [11:0] (R34). -/
  plen : BitVec 12
  /-- PKLEN, bits [12:0] (R35). -/
  pklen : BitVec 13
  /-- WEIGHT, bits [11:0] (R36). -/
  weight : BitVec 12
  /-- The word array of BNA, word 0 least significant (R37). -/
  bna : Vector Word 32
  /-- The word array of BNB, word 0 least significant (R37). -/
  bnb : Vector Word 16
  /-- The byte and element buffers HASH, CH, VA, VB, SY, SIG, PK, ENT and HM (R39 to R47). -/
  mem : Memory
  /-- The model's own: how many resets have happened, the epoch of the unspecified content of HM (R51,
  assumption log 1). -/
  resets : Nat
  /-- The model's own: the accesses, resets and engine turns still to come, first the next one (R75,
  assumption log 2). -/
  schedule : List Event
  /-- The model's own: the responses to the host's accesses so far, newest first (R60, assumption
  log 3). -/
  replies : List Reply
  deriving DecidableEq, Repr

/-- The state right after reset (R51, R210): every register and buffer zero but PLEN = 2896 and
PKLEN = 4344, the engine IDLE, no byte of HM known. -/
def State.reset : State where
  cmd := 0
  busy := false
  done := false
  err := false
  errCode := 0
  ieDone := false
  ieErr := false
  mlock := false
  errInfo := 0
  opw := 0
  rem := 0
  lenA := 0
  lenB := 0
  plen := 2896
  pklen := 4344
  weight := 0
  bna := Vector.replicate 32 0
  bnb := Vector.replicate 16 0
  mem := []
  resets := 0
  schedule := []
  replies := []

end Sys2Proof.Machine
end

