-- ==== Sys2Proof/Machine/Ops.lean ====
section
/-!
DEFINITION. The operations every command is written over: the buffers and their places (20_memory.md R66),
reading and writing memory bytes, the big-integer registers as lists of words (43_bignum.md R141), and the
two ends of a command: completion (45_control.md R170) and fault entry (60_exceptions.md R183), with the
acknowledge that returns from a fault (R186).
-/

namespace Sys2Proof.Machine

/-! ## The buffers (R39 to R47, R66) -/

/-- The byte and element buffers. -/
inductive Buf where
  | hash
  | ch
  | va
  | vb
  | sy
  | sig
  | pk
  | ent
  | hm
  deriving DecidableEq, Repr

/-- The bus address of a buffer's first byte (R66). -/
def bufBase : Buf → Nat
  | .hash => 0x00200
  | .ch => 0x00300
  | .va => 0x00400
  | .vb => 0x00600
  | .sy => 0x00800
  | .sig => 0x01000
  | .pk => 0x03000
  | .ent => 0x05000
  | .hm => 0x40000

/-- A buffer's size in bytes, pad bytes not counted (R39 to R47). -/
def bufSize : Buf → Nat
  | .hash => 64
  | .ch => 219
  | .va => 362
  | .vb => 362
  | .sy => 181
  | .sig => 5792
  | .pk => 4344
  | .ent => 11584
  | .hm => 262088

/-- All buffers, in the order of their addresses. -/
def allBufs : List Buf := [.hash, .ch, .va, .vb, .sy, .sig, .pk, .ent, .hm]

/-! ## Memory -/

/-- What an unlisted address reads as: 0 in every buffer but HM ("every byte, element and digit 0", R51),
and no value in HM ("unspecified", R51). -/
def background (a : Nat) : Option Byte :=
  if bufBase .hm ≤ a then none else some 0

/-- The canonical form of memory: addresses strictly rising, and no entry equal to what an unlisted
address reads as. -/
abbrev Memory.wf (m : Memory) : Prop :=
  (m.map Prod.fst).Pairwise (· < ·) ∧ ∀ c ∈ m, some c.2 ≠ background c.1

/-- The byte known at an address, `none` where nothing is known of it. -/
def Memory.get (m : Memory) (a : Nat) : Option Byte :=
  match m.lookup a with
  | some v => some v
  | none => background a

/-- The entries of the block of `n` bytes at `base` whose byte `o` is `f o`, in canonical form. -/
def freshCells (base n : Nat) (f : Nat → Byte) : Memory :=
  ((List.range n).map fun o => (base + o, f o)).filter fun c => some c.2 != background c.1

/-- The one write: the `n` bytes at `base` become `f 0`, `f 1`, …, `f (n - 1)`. -/
def Memory.patch (m : Memory) (base n : Nat) (f : Nat → Byte) : Memory :=
  m.filter (fun c => decide (c.1 < base)) ++ freshCells base n f ++
    m.filter (fun c => decide (base + n ≤ c.1))

/-- The `n` bytes at `base` return to what an unlisted address reads as. -/
def Memory.clear (m : Memory) (base n : Nat) : Memory :=
  m.filter fun c => decide (c.1 < base ∨ base + n ≤ c.1)

/-- The byte a command or a bus access sees at an address; a byte of HM not written since reset is the
free value (R51, R216, U17). -/
def readByte (s : State) (a : Nat) : Byte :=
  match s.mem.get a with
  | some v => v
  | none => Config.hmReset s.resets (a - bufBase .hm)

/-- Byte `o` of a buffer, `BUF.byte[o]` (R12, R67). -/
def bufByte (s : State) (b : Buf) (o : Nat) : Byte := readByte s (bufBase b + o)

/-- Bytes 0 to `n - 1` of a buffer become `f 0`, `f 1`, …, `f (n - 1)`; its other bytes stay. -/
def writeBuf (s : State) (b : Buf) (n : Nat) (f : Nat → Byte) : State :=
  { s with mem := s.mem.patch (bufBase b) n f }

/-- Every byte of each of these buffers returns to what an unlisted address reads as, 0 in every buffer but
HM (R51, R173). -/
def Memory.clearBufs (m : Memory) (bs : List Buf) : Memory :=
  bs.foldl (fun m b => m.clear (bufBase b) (bufSize b)) m

/-! ## The big-integer registers (R37, R141) -/

/-- CAP[d] (R6, R37). -/
def bnCap : BnSel → Nat
  | .bna => Config.capA
  | .bnb => Config.capB

/-- All words of BN[d], word 0 first (R37). -/
def bnArray (s : State) : BnSel → List Word
  | .bna => s.bna.toList
  | .bnb => s.bnb.toList

/-- LEN[d] (R33). -/
def bnLen (s : State) : BnSel → Nat
  | .bna => s.lenA.toNat
  | .bnb => s.lenB.toNat

/-- The words of BN[d] that carry its value, words 0 to LEN[d] − 1 (R141: "A command reads only words 0 to
LEN[s]−1 of its source"). -/
def bnWords (s : State) (d : BnSel) : List Word := (bnArray s d).take (bnLen s d)

/-- A word array of `n` words that starts with `xs`, zero beyond it (R141). -/
def padWords (n : Nat) (xs : List Word) : Vector Word n :=
  Vector.ofFn fun i => xs.getD i.1 0

/-- `BN[d] <- (n', x[0..n'−1])`: the words, zeros beyond them, and the length (R141). -/
def writeBn (s : State) (d : BnSel) (xs : List Word) : State :=
  match d with
  | .bna => { s with bna := padWords 32 xs, lenA := BitVec.ofNat 6 xs.length }
  | .bnb => { s with bnb := padWords 16 xs, lenB := BitVec.ofNat 6 xs.length }

/-- The value of a list of words, word 0 least significant: Σ w[i] × 2^(32 i) (R12, R37). -/
def wordsVal : List Word → Nat
  | [] => 0
  | w :: ws => w.toNat + 2 ^ 32 * wordsVal ws

/-- val(BN[d]) (R12). -/
def bnVal (s : State) (d : BnSel) : Nat := wordsVal (bnWords s d)

/-! ## The scalar registers commands write -/

/-- REM takes a remainder (R32). -/
def setRem (s : State) (r : Nat) : State := { s with rem := BitVec.ofNat 2 r }

/-- PLEN takes an element count (R34). -/
def setPlen (s : State) (n : Nat) : State := { s with plen := BitVec.ofNat 12 n }

/-- PKLEN takes a byte count (R35). -/
def setPklen (s : State) (n : Nat) : State := { s with pklen := BitVec.ofNat 13 n }

/-- WEIGHT takes a bit count (R36). -/
def setWeight (s : State) (n : Nat) : State := { s with weight := BitVec.ofNat 12 n }

/-! ## The two ends of a command, and the acknowledge -/

/-- Fault-free completion: DONE <- 1, BUSY <- 0 (R170). -/
def complete (s : State) : State := { s with done := true, busy := false }

/-- The outcome of a command that completes without fault in the state its writes give. -/
def finish (s : State) : Host.Outcome State Fault Refusal := .next (complete s)

/-- The code of a fault class, the value of STATUS.ERRCODE (R181). -/
def errNum : ErrCode → BitVec 8
  | .illCmd => 1
  | .cap => 2
  | .odd => 3
  | .pkLen => 4
  | .index => 5
  | .noMat => 6

/-- Fault entry (R183): ERR <- 1, ERRCODE and ERRINFO record the fault, BUSY <- 0; nothing else changes. -/
def faultEntry (s : State) (code : ErrCode) (info : Word) : State :=
  { s with err := true, errCode := errNum code, errInfo := info, busy := false }

/-- `raise E_X(info)` (R182): the outcome of a command whose check fails. -/
def raise (s : State) (code : ErrCode) (info : Word) : Host.Outcome State Fault Refusal :=
  .next (faultEntry s code info)

/-- The acknowledge, the return from a fault (R186): ERR, ERRCODE and ERRINFO <- 0. With ERR = 0 it has no
effect. -/
def acknowledge (s : State) : State :=
  if s.err then { s with err := false, errCode := 0, errInfo := 0 } else s

/-- Acceptance of a command word (R171): CMD <- v, DONE <- 0, BUSY <- 1. -/
def accept (s : State) (v : Word) : State := { s with cmd := v, done := false, busy := true }

/-! ## The model's own schedule (assumption log 2) -/

/-- The state with another schedule. -/
def setSchedule (s : State) (es : List Event) : State := { s with schedule := es }

end Sys2Proof.Machine
end

