-- ==== Sys2Proof/Machine/Flags.lean ====
section
/-!
DEFINITION. The flags: the words STATUS and CTRL read as, what a host write does to them (10_state.md R28,
R29), and the interrupt line (R49, 60_exceptions.md R189).
-/

namespace Sys2Proof.Machine

/-- The word a flag contributes at a bit position. -/
def flagAt (b : Bool) (pos : Nat) : Word := if b then 1 <<< pos else 0

/-- STATUS as a read returns it (R28): BUSY, DONE, ERR, the copy of MLOCK, ERRCODE in bits [15:8], zeros
elsewhere. -/
def statusWord (s : State) : Word :=
  flagAt s.busy 0 ||| flagAt s.done 1 ||| flagAt s.err 2 ||| flagAt s.mlock 3 |||
    (s.errCode.setWidth 32 <<< 8)

/-- A host write of `v` to STATUS (R28, R186): bit 2 acknowledges a fault, bit 1 clears DONE, the other
bits are ignored. -/
def writeStatus (s : State) (v : Word) : State :=
  let s1 := if v.getLsbD 2 then acknowledge s else s
  if v.getLsbD 1 then { s1 with done := false } else s1

/-- CTRL as a read returns it (R29). -/
def ctrlWord (s : State) : Word :=
  flagAt s.ieDone 0 ||| flagAt s.ieErr 1 ||| flagAt s.mlock 8

/-- A host write of `v` to CTRL (R29): bits 0 and 1 take the written value, bit 8 is set if written 1 and
is never cleared. -/
def writeCtrl (s : State) (v : Word) : State :=
  { s with ieDone := v.getLsbD 0, ieErr := v.getLsbD 1, mlock := s.mlock || v.getLsbD 8 }

/-- The interrupt line: (DONE & IE_DONE) | (ERR & IE_ERR) (R49, R189). -/
def irq (s : State) : Bool := (s.done && s.ieDone) || (s.err && s.ieErr)

/-- The engine is IDLE (R28). -/
def idle (s : State) : Bool := !s.busy && !s.err

/-- The engine is in FAULT (R28, R185). -/
def inFault (s : State) : Bool := !s.busy && s.err

end Sys2Proof.Machine
end

