-- ==== Sys2Proof/Machine/Operands.lean ====
section
/-!
DEFINITION. How commands see the buffers (20_memory.md R67 to R72, R78): bits of packed vectors, 16-bit
elements of SIG, 32-bit elements of ENT, bits of matrix rows, the digits of CH and the words of the hash
integer, and the writes in the same units.
-/

namespace Sys2Proof.Machine

/-! ## Bytes and words -/

/-- Byte `k` of a word in lane order, the lowest offset in bits [7:0] (R67). -/
def wordByte (v : Word) (k : Nat) : Byte := v.extractLsb' (8 * k) 8

/-- The word whose bytes in lane order are `b0`, `b1`, `b2`, `b3` (R67). -/
def wordOfBytes (b0 b1 b2 b3 : Byte) : Word := b3 ++ b2 ++ b1 ++ b0

/-- Byte `k` (0 or 1) of a 16-bit element (R69: SIG[2q] is bits [15:0] of its word). -/
def halfByte (v : Half) (k : Nat) : Byte := v.extractLsb' (8 * k) 8

/-! ## Packed bit vectors, most significant bit first (R70) -/

/-- Bit `t` of a byte counted from its 0x80 bit: bit (7 − t) (R70). -/
def byteBit (b : Byte) (t : Nat) : Bool := b.getLsbD (7 - t)

/-- The byte whose bits, from its 0x80 bit down, are `g 0` to `g 7` (R70). -/
def packByte (g : Nat → Bool) : Byte :=
  BitVec.ofBool (g 0) ++ BitVec.ofBool (g 1) ++ BitVec.ofBool (g 2) ++ BitVec.ofBool (g 3) ++
    BitVec.ofBool (g 4) ++ BitVec.ofBool (g 5) ++ BitVec.ofBool (g 6) ++ BitVec.ofBool (g 7)

/-- `BUF.bit[i]`: bit (7 − i mod 8) of `BUF.byte[i div 8]` (R12, R70). -/
def bufBit (s : State) (b : Buf) (i : Nat) : Bool := byteBit (bufByte s b (i / 8)) (i % 8)

/-- ceil(n / 8), the bytes a vector of `n` bits occupies (R70). -/
def bitBytes (n : Nat) : Nat := (n + 7) / 8

/-- Bits 0 to `n - 1` of a vector become `g 0` to `g (n - 1)`: ceil(n / 8) bytes are written, the pad bits
of the last one 0 (R115, R131). -/
def writeBits (s : State) (b : Buf) (n : Nat) (g : Nat → Bool) : State :=
  writeBuf s b (bitBytes n) fun o => packByte fun t => decide (8 * o + t < n) && g (8 * o + t)

/-- The vector PWT counts (R119). -/
def vecBuf : VecSel → Buf
  | .va => .va
  | .vb => .vb

/-- `HM.row[i].bit[j]`: bit (7 − j mod 8) of HM byte 181 i + j div 8 (R45). -/
def hmBit (s : State) (i j : Nat) : Bool := byteBit (bufByte s .hm (181 * i + j / 8)) (j % 8)

/-! ## Element buffers (R69) -/

/-- SIG[i] (R42, R69). -/
def sigAt (s : State) (i : Nat) : Half := bufByte s .sig (2 * i + 1) ++ bufByte s .sig (2 * i)

/-- SIG[0..n−1] become `f 0` to `f (n - 1)`, all 16 bits of each (R42, R69). -/
def writeSig (s : State) (n : Nat) (f : Nat → Half) : State :=
  writeBuf s .sig (2 * n) fun o => halfByte (f (o / 2)) (o % 2)

/-- ENT[i] (R44, R69). -/
def entAt (s : State) (i : Nat) : Word :=
  wordOfBytes (bufByte s .ent (4 * i)) (bufByte s .ent (4 * i + 1)) (bufByte s .ent (4 * i + 2))
    (bufByte s .ent (4 * i + 3))

/-- CH[i], the digit of round i (R47, R69). -/
def chAt (s : State) (i : Nat) : Nat := (bufByte s .ch i).toNat

/-! ## The hash as a big-endian integer (R72) -/

/-- Big-integer word `i` of the hash, 0 ≤ i < 16: bytes 60−4i to 63−4i, the first most significant (R72). -/
def hashWord (s : State) (i : Nat) : Word :=
  bufByte s .hash (60 - 4 * i) ++ bufByte s .hash (61 - 4 * i) ++ bufByte s .hash (62 - 4 * i) ++
    bufByte s .hash (63 - 4 * i)

/-! ## The length registers -/

/-- L, the value of PLEN (R110). -/
def plenVal (s : State) : Nat := s.plen.toNat

/-- B, the value of PKLEN (R118). -/
def pklenVal (s : State) : Nat := s.pklen.toNat

end Sys2Proof.Machine
end

