-- ==== Sys2Proof/Machine/Bus.lean ====
section
/-!
DEFINITION. The host's side of the bus (20_memory.md R60 to R69, 10_state.md R22 to R36, 45_control.md R171):
where an address lies, which accesses are refused, what a read returns and what a write does; and the reset
input (70_reset_and_hazards.md R210, R211).
-/

namespace Sys2Proof.Machine

/-- The control and status registers (R23). -/
inductive Reg where
  | id
  | param0
  | param1
  | cmd
  | status
  | ctrl
  | errInfo
  | opw
  | rem
  | lenA
  | lenB
  | plen
  | pklen
  | weight
  deriving DecidableEq, Repr

/-- The registers in the order of their offsets 0x00, 0x04, …, 0x34 (R23). -/
def regMap : List Reg :=
  [.id, .param0, .param1, .cmd, .status, .ctrl, .errInfo, .opw, .rem, .lenA, .lenB, .plen, .pklen, .weight]

/-- What a mapped word of the address space is (R66): a register, a word of a big-integer register, or word
`q` of a buffer. -/
inductive Target where
  | reg (r : Reg)
  | bn (d : BnSel) (i : Nat)
  | buf (b : Buf) (q : Nat)
  deriving DecidableEq, Repr

/-- The bytes a buffer's region spans on the bus, its size rounded up to whole words (R66, R68). -/
def bufSpan (b : Buf) : Nat := 4 * ((bufSize b + 3) / 4)

/-- The word an address names (R66); `none` for an address outside every region (R63). -/
def locate (a : Nat) : Option Target :=
  if a < 0x38 then (regMap[a / 4]?).map .reg
  else if 0x100 ≤ a ∧ a < 0x180 then some (.bn .bna ((a - 0x100) / 4))
  else if 0x180 ≤ a ∧ a < 0x1C0 then some (.bn .bnb ((a - 0x180) / 4))
  else
    (allBufs.find? fun b => decide (bufBase b ≤ a ∧ a < bufBase b + bufSpan b)).map fun b =>
      .buf b ((a - bufBase b) / 4)

/-- The word a host access names: an aligned 32-bit access to a mapped address (R61, R63). -/
def target (addr : BitVec 19) (width : Width) : Option Target :=
  if width = .word ∧ addr.toNat % 4 = 0 then locate addr.toNat else none

/-! ## Reads (R62) -/

/-- The word a register reads as (R22 to R36). -/
def regWord (s : State) : Reg → Word
  | .id => Config.idWord
  | .param0 => Config.param0Word
  | .param1 => Config.param1Word
  | .cmd => s.cmd
  | .status => statusWord s
  | .ctrl => ctrlWord s
  | .errInfo => s.errInfo
  | .opw => s.opw
  | .rem => s.rem.setWidth 32
  | .lenA => s.lenA.setWidth 32
  | .lenB => s.lenB.setWidth 32
  | .plen => s.plen.setWidth 32
  | .pklen => s.pklen.setWidth 32
  | .weight => s.weight.setWidth 32

/-- The byte the host sees at offset `o` of a buffer's region: 0 in the pad bytes, and bits [1:0] only in
CH (R47, R68). -/
def hostByte (s : State) (b : Buf) (o : Nat) : Byte :=
  if bufSize b ≤ o then 0 else if b = .ch then bufByte s b o &&& 3 else bufByte s b o

/-- Word `q` of a buffer's region, little-endian lanes (R67). -/
def bufWord (s : State) (b : Buf) (q : Nat) : Word :=
  wordOfBytes (hostByte s b (4 * q)) (hostByte s b (4 * q + 1)) (hostByte s b (4 * q + 2))
    (hostByte s b (4 * q + 3))

/-- The word a target reads as. -/
def targetWord (s : State) : Target → Word
  | .reg r => regWord s r
  | .bn d i => (bnArray s d).getD i 0
  | .buf b q => bufWord s b q

/-- Registers are readable in every state, buffers only while not BUSY (R64). -/
def readAllowed (s : State) : Target → Bool
  | .reg _ => true
  | .bn _ _ => !s.busy
  | .buf _ _ => !s.busy

/-- `MemRead(addr, width)` (R62): the word, or a refused access. -/
def busRead (s : State) (addr : BitVec 19) (width : Width) : Reply :=
  match target addr width with
  | none => .error
  | some t => if readAllowed s t then .data (targetWord s t) else .error

/-! ## Writes (R62, R64, R65) -/

/-- A host write to CMD, the issue of a command (R27, R171): accepted when IDLE for every word, in FAULT for
the ZEROIZE word only. -/
def writeCmd (s : State) (v : Word) : Option State :=
  if idle s || (inFault s && v == 0x00000001) then some (accept s v) else none

/-- A host write to a register (R22 to R36, R64, R65); `none` is a refused write. -/
def writeReg (s : State) (v : Word) : Reg → Option State
  | .id => none
  | .param0 => none
  | .param1 => none
  | .cmd => writeCmd s v
  | .status => some (writeStatus s v)
  | .ctrl => some (writeCtrl s v)
  | .errInfo => none
  | .opw => if s.busy then none else some { s with opw := v }
  | .rem => none
  | .lenA =>
    if s.busy || decide (Config.capA < v.toNat) then none else some { s with lenA := v.setWidth 6 }
  | .lenB =>
    if s.busy || decide (Config.capB < v.toNat) then none else some { s with lenB := v.setWidth 6 }
  | .plen =>
    if s.busy || decide (Config.codeLength < v.toNat) then none else some { s with plen := v.setWidth 12 }
  | .pklen =>
    if s.busy || decide (Config.packedBytes < v.toNat) then none else some { s with pklen := v.setWidth 13 }
  | .weight => none

/-- Word `i` of a big-integer register takes a host-written value (R37, R69). -/
def setBnWord (s : State) (d : BnSel) (i : Nat) (v : Word) : State :=
  match d with
  | .bna => { s with bna := s.bna.setIfInBounds i v }
  | .bnb => { s with bnb := s.bnb.setIfInBounds i v }

/-- Word `q` of a buffer's region takes a host-written value; its pad bytes ignore the write (R67, R68). -/
def storeWord (s : State) (b : Buf) (q : Nat) (v : Word) : State :=
  { s with mem := s.mem.patch (bufBase b + 4 * q) (min 4 (bufSize b - 4 * q)) (wordByte v) }

/-- Which buffers the host may write when not BUSY: VB, SY and CH never, HM while it is not locked (R65,
R66). -/
def bufWritable (s : State) : Buf → Bool
  | .hash => true
  | .ch => false
  | .va => true
  | .vb => false
  | .sy => false
  | .sig => true
  | .pk => true
  | .ent => true
  | .hm => !s.mlock

/-- The state a host write to a target leaves; `none` is a refused write (R64, R65). -/
def writeTarget (s : State) (v : Word) : Target → Option State
  | .reg r => writeReg s v r
  | .bn d i => if s.busy then none else some (setBnWord s d i v)
  | .buf b q => if s.busy || !bufWritable s b then none else some (storeWord s b q v)

/-- `MemWrite(addr, width, v)` (R62): the state it leaves, or `none` for a refused access. -/
def busWrite (s : State) (addr : BitVec 19) (width : Width) (v : Word) : Option State :=
  match target addr width with
  | none => none
  | some t => writeTarget s v t

/-! ## Reset and the events of the host -/

/-- Reset, in any state (R210, R211): every register and buffer takes its reset value, HM is unspecified
anew. The model's own record of responses and of what is still to come stays. -/
def resetEvent (s : State) : State :=
  { State.reset with resets := s.resets + 1, schedule := s.schedule, replies := s.replies }

/-- The state with one more response recorded. -/
def answer (s : State) (r : Reply) : State := { s with replies := r :: s.replies }

/-- A host read: it changes nothing but the record of responses (R62). -/
def readEvent (s : State) (addr : BitVec 19) (width : Width) : State :=
  answer s (busRead s addr width)

/-- A host write: a refused one changes nothing but the record of responses (R60, R65). -/
def writeEvent (s : State) (addr : BitVec 19) (width : Width) (v : Word) : State :=
  match busWrite s addr width v with
  | none => answer s .error
  | some t => answer t .okay

end Sys2Proof.Machine
end

