-- ==== Sys2Proof/Machine/Bignum.lean ====
section
/-!
DEFINITION. The multi-word unsigned integer commands BN_LDH, BN_MULW, BN_DIV3, BN_COPY and BN_SHRW
(43_bignum.md R140 to R149), over lists of words with word 0 least significant.
-/

namespace Sys2Proof.Machine

/-- Leading zero words stripped: the words up to the highest non-zero one (R143, R149). -/
def stripZeros : List Word → List Word
  | [] => []
  | w :: ws =>
    match stripZeros ws with
    | [] => if w = 0 then [] else [w]
    | v :: vs => w :: v :: vs

/-- A command's big-integer result: `BN[d] <- (n', x)`, or E_CAP(n') when it needs more words than BN[d]
has (R141, R142). -/
def finishBn (s : State) (d : BnSel) (xs : List Word) : Host.Outcome State Fault Refusal :=
  if bnCap d < xs.length then raise s .cap (BitVec.ofNat 32 xs.length) else finish (writeBn s d xs)

/-! ## BN_LDH (R143) -/

/-- The hash as a big integer, leading zero words stripped (R143). -/
def hashWords (s : State) : List Word := stripZeros ((List.range 16).map (hashWord s))

/-- BN_LDH d: load the hash as a big-endian integer (R143). -/
def execBnLdh (d : BnSel) (s : State) : Host.Outcome State Fault Refusal :=
  finish (writeBn s d (hashWords s))

/-! ## BN_MULW (R144) -/

/-- The loop of rule R144 from a carry on: t = w × m + carry, the word t mod 2^32, the next carry
t >> 32; a last carry that is not 0 is appended as the new most significant word. -/
def mulLoop (m : Word) (carry : Nat) : List Word → List Word
  | [] => if carry = 0 then [] else [BitVec.ofNat 32 carry]
  | w :: ws =>
    BitVec.ofNat 32 (w.toNat * m.toNat + carry) ::
      mulLoop m ((w.toNat * m.toNat + carry) / 2 ^ 32) ws

/-- The product of a big integer and a word; zero with length 0 when the word is 0 (R144, D9). -/
def mulWords (m : Word) (ws : List Word) : List Word := if m = 0 then [] else mulLoop m 0 ws

/-- BN_MULW d: multiply BN[d] by OPW, or E_CAP (R144). -/
def execBnMulw (d : BnSel) (s : State) : Host.Outcome State Fault Refusal :=
  finishBn s d (mulWords s.opw (bnWords s d))

/-! ## BN_DIV3 (R146, R147) -/

/-- The loop of rule R146, most significant word first: all quotient words and the last remainder. -/
def divLoop : List Word → List Word × Nat
  | [] => ([], 0)
  | w :: ws =>
    let hi := divLoop ws
    let v := hi.2 * 2 ^ 32 + w.toNat
    (BitVec.ofNat 32 (v / 3) :: hi.1, v % 3)

/-- The quotient's length: the dividend's, or one less if its top word is below 3 (R146). -/
def quotLen (ws : List Word) : Nat :=
  match ws.getLast? with
  | none => 0
  | some top => if top.toNat < 3 then ws.length - 1 else ws.length

/-- The quotient's words (R146). -/
def quotWords (ws : List Word) : List Word := (divLoop ws).1.take (quotLen ws)

/-- The remainder, 0, 1 or 2 (R146). -/
def remOf (ws : List Word) : Nat := (divLoop ws).2

/-- One word's quotient and remainder by the reciprocal estimate and its one-step correction (R147). The
result is rule R146's `v / 3` and `v % 3`, which the commands use. -/
def recipDiv (v : Nat) : Nat × Nat :=
  let est := v * Config.recip / 2 ^ 32
  let rr := v - 3 * est
  if 3 ≤ rr then (est + 1, rr - 3) else (est, rr)

/-- BN_DIV3 d, s: BN[d] becomes BN[s] div 3 and REM the remainder, or E_CAP (R146). -/
def execBnDiv3 (d src : BnSel) (s : State) : Host.Outcome State Fault Refusal :=
  let ws := bnWords s src
  if bnCap d < (quotWords ws).length then raise s .cap (BitVec.ofNat 32 (quotWords ws).length)
  else finish (setRem (writeBn s d (quotWords ws)) (remOf ws))

/-! ## BN_COPY (R148) -/

/-- BN_COPY d, s: BN[d] becomes BN[s], or E_CAP (R148). -/
def execBnCopy (d src : BnSel) (s : State) : Host.Outcome State Fault Refusal :=
  finishBn s d (bnWords s src)

/-! ## BN_SHRW (R149) -/

/-- A big integer shifted right by `k` whole words, its length recomputed (R149); `k` at or above the
length gives zero. -/
def shrWords (k : Nat) (ws : List Word) : List Word := stripZeros (ws.drop k)

/-- BN_SHRW d, k: shift BN[d] right by k words and recompute the length (R149). -/
def execBnShrw (d : BnSel) (k : Nat) (s : State) : Host.Outcome State Fault Refusal :=
  finish (writeBn s d (shrWords k (bnWords s d)))

end Sys2Proof.Machine
end

