-- ==== Sys2Proof/Machine/Challenge.lean ====
section
/-!
DEFINITION. The ternary challenge converter CHAL (44_challenge.md R160 to R164), as the sequence of
big-integer micro-operations that rule R163 gives.
-/

namespace Sys2Proof.Machine

/-- Ten multiplications by 3^20, then one by 3^19 (R162, R163). -/
def timesPow219 (ws : List Word) : List Word :=
  mulWords Config.pow19 (Nat.iterate (mulWords Config.pow20) 10 ws)

/-- H' = (H × 3^219) >> 512 as words: the load, the eleven multiplications and the shift by 16 words
(R161 to R163). The product has at most 27 words (R162), so no capacity check can fail. -/
def chalWords (s : State) : List Word := shrWords 16 (timesPow219 (hashWords s))

/-- The loop of rule R163 for at most `fuel` divisions: the remainders in the order they come, least
significant digit first; it stops as soon as the length is 0, tested before every division. -/
def digitLoop : Nat → List Word → List Nat
  | 0, _ => []
  | _ + 1, [] => []
  | fuel + 1, w :: ws => remOf (w :: ws) :: digitLoop fuel (quotWords (w :: ws))

/-- What the same loop leaves in BN[A] (R163). -/
def quotLoop : Nat → List Word → List Word
  | 0, ws => ws
  | _ + 1, [] => []
  | fuel + 1, w :: ws => quotLoop fuel (quotWords (w :: ws))

/-- The remainders CHAL records, the j-th division's at position j (R163). -/
def chalDigits (s : State) : List Nat := digitLoop Config.delta (chalWords s)

/-- CH byte `i`: the remainder of division j goes to CH[DELTA−1−j]; positions no division reaches are 0
(R163, D23). -/
def chalByte (s : State) (i : Nat) : Byte :=
  BitVec.ofNat 8 ((chalDigits s).getD (Config.delta - 1 - i) 0)

/-- REM after CHAL: the remainder of the last division made, or unchanged when none was (R163). -/
def chalRem (s : State) : Nat :=
  match (chalDigits s).getLast? with
  | none => s.rem.toNat
  | some r => r

/-- CHAL: derive the DELTA ternary challenge digits from the hash (R163). It works in BNA and leaves OPW
alone. -/
def execChal (s : State) : Host.Outcome State Fault Refusal :=
  finish (setRem (writeBn (writeBuf s .ch Config.delta (chalByte s)) .bna
    (quotLoop Config.delta (chalWords s))) (chalRem s))

end Sys2Proof.Machine
end

