-- ==== Sys2Proof/Machine/Control.lean ====
section
/-!
DEFINITION. The control commands NOP and ZEROIZE, and the completion of an illegal word (45_control.md R170,
R172, R173; 30_encoding.md R95).
-/

namespace Sys2Proof.Machine

/-- NOP: do nothing (R172). -/
def execNop (s : State) : Host.Outcome State Fault Refusal := finish s

/-- The buffers ZEROIZE clears: all but HM, which is public (R50, R173). -/
def secretBufs : List Buf := [.va, .vb, .sy, .sig, .pk, .ent, .hash, .ch]

/-- The writes of ZEROIZE (R173). PLEN, PKLEN, CTRL, CMD, the fault record and HM are not among them. -/
def zeroized (s : State) : State :=
  { s with
    mem := s.mem.clearBufs secretBufs,
    bna := Vector.replicate 32 0, bnb := Vector.replicate 16 0, lenA := 0, lenB := 0,
    opw := 0, rem := 0, weight := 0 }

/-- ZEROIZE: clear every secret-bearing buffer and register (R173). -/
def execZeroize (s : State) : Host.Outcome State Fault Refusal := finish (zeroized s)

/-- The completion of a word that matches no row of the opcode map: E_ILLCMD with ERRINFO = the word
(R95, R170, R181). -/
def execIllegal (s : State) : Host.Outcome State Fault Refusal := raise s .illCmd s.cmd

end Sys2Proof.Machine
end

