-- ==== Sys2Proof/Machine/Perm.lean ====
section
/-!
DEFINITION. The bit-permutation and bit-packer commands PIOTA, PSHUF, PAPPLY, PPACK, PUNPK and PWT
(41_permutation_packer.md R110 to R119).
-/

namespace Sys2Proof.Machine

/-- PIOTA: load the identity permutation into SIG[0..L−1] (R113). -/
def execPiota (s : State) : Host.Outcome State Fault Refusal :=
  finish (writeSig s (plenVal s) fun i => BitVec.ofNat 16 i)

/-! ## PSHUF (R114) -/

/-- The 48-bit unsigned key of position `i`: ENT[i] × 65536 + SIG[i] (R114). -/
def shufKey (s : State) (i : Nat) : Nat := (entAt s i).toNat * 65536 + (sigAt s i).toNat

/-- The keys of positions 0 to L − 1, in position order (R114). -/
def shufKeys (s : State) : List Nat := (List.range (plenVal s)).map (shufKey s)

/-- A key put into an ascending list at its place. -/
def insertKey (k : Nat) : List Nat → List Nat
  | [] => [k]
  | x :: xs => if k ≤ x then k :: x :: xs else x :: insertKey k xs

/-- The keys in ascending order of value (R114, D25); the order of a multiset of integers is unique, so the
sorting method is not architectural. -/
def sortKeys : List Nat → List Nat
  | [] => []
  | x :: xs => insertKey x (sortKeys xs)

/-- PSHUF: SIG[i] becomes the low 16 bits of the i-th smallest key (R114). -/
def execPshuf (s : State) : Host.Outcome State Fault Refusal :=
  let keys := sortKeys (shufKeys s)
  finish (writeSig s (plenVal s) fun i => BitVec.ofNat 16 (keys.getD i 0))

/-! ## PAPPLY (R115) -/

/-- The lowest i < L with SIG[i] ≥ `bound`, if there is one (R115, R116, R181). -/
def firstIndexFrom (s : State) (bound : Nat) : Option Nat :=
  (List.range (plenVal s)).find? fun i => decide (bound ≤ (sigAt s i).toNat)

/-- PAPPLY: VB.bit[i] becomes VA.bit[SIG[i]] for i < L, or E_INDEX at the lowest i with SIG[i] ≥ L
(R115). -/
def execPapply (s : State) : Host.Outcome State Fault Refusal :=
  match firstIndexFrom s (plenVal s) with
  | some i => raise s .index (BitVec.ofNat 32 i)
  | none => finish (writeBits s .vb (plenVal s) fun i => bufBit s .va (sigAt s i).toNat)

/-! ## PPACK (R116) -/

/-- Byte `o` of the packed bitstream: two indices per three bytes,
`[i0,i1] -> [i0>>4, (i0<<4)|(i1>>8), i1&0xFF]` (R116). -/
def packedByte (s : State) (o : Nat) : Byte :=
  let i0 := sigAt s (2 * (o / 3))
  let i1 := sigAt s (2 * (o / 3) + 1)
  match o % 3 with
  | 0 => (i0 >>> 4).setWidth 8
  | 1 => ((i0 <<< 4) ||| (i1 >>> 8)).setWidth 8
  | _ => i1.setWidth 8

/-- PPACK: pack SIG[0..L−1] into PK and set PKLEN = 3 L / 2; E_ODD when L is odd, then E_INDEX at the lowest
i with SIG[i] ≥ 4096 (R116). -/
def execPpack (s : State) : Host.Outcome State Fault Refusal :=
  if plenVal s % 2 = 1 then raise s .odd (BitVec.ofNat 32 (plenVal s))
  else
    match firstIndexFrom s 4096 with
    | some i => raise s .index (BitVec.ofNat 32 i)
    | none =>
      finish (setPklen (writeBuf s .pk (3 * (plenVal s / 2)) (packedByte s)) (3 * plenVal s / 2))

/-! ## PUNPK (R118) -/

/-- Element `i` unpacked from the bitstream (R118): a 12-bit value, bits [15:12] zero. -/
def unpackedIndex (s : State) (i : Nat) : Half :=
  let b0 := (bufByte s .pk (3 * (i / 2))).setWidth 16
  let b1 := (bufByte s .pk (3 * (i / 2) + 1)).setWidth 16
  let b2 := (bufByte s .pk (3 * (i / 2) + 2)).setWidth 16
  match i % 2 with
  | 0 => (b0 <<< 4) ||| (b1 >>> 4)
  | _ => ((b1 &&& 0x0F) <<< 8) ||| b2

/-- PUNPK: unpack PK[0..B−1] into SIG and set PLEN = 2 B / 3, or E_PKLEN when B is not a multiple of 3
(R118). -/
def execPunpk (s : State) : Host.Outcome State Fault Refusal :=
  if pklenVal s % 3 = 0 then
    finish (setPlen (writeSig s (2 * (pklenVal s / 3)) (unpackedIndex s)) (2 * pklenVal s / 3))
  else raise s .pkLen (BitVec.ofNat 32 (pklenVal s))

/-! ## PWT (R119) -/

/-- The number of set bits among bits 0 to N − 1 of a vector (R119). -/
def hammingWeight (s : State) (b : Buf) : Nat :=
  (List.range Config.codeLength).countP fun i => bufBit s b i

/-- PWT: count the Hamming weight of VA or VB over all N bits, whatever PLEN is (R119). -/
def execPwt (v : VecSel) (s : State) : Host.Outcome State Fault Refusal :=
  finish (setWeight s (hammingWeight s (vecBuf v)))

end Sys2Proof.Machine
end

