-- ==== Sys2Proof/Machine/Syn.lean ====
section
/-!
DEFINITION. The GF(2) syndrome command SYN (42_syndrome.md R130, R131): the product of [ I | M ], with M in HM,
and the key vector in VA.
-/

namespace Sys2Proof.Machine

/-- Syndrome bit `i`: key bit i (the identity bit of row i) ⊕ row i of M against key bits R to N − 1
(R131). -/
def synBit (s : State) (i : Nat) : Bool :=
  (List.range Config.codeDim).foldl
    (fun acc j => acc ^^ (hmBit s i j && bufBit s .va (Config.codeDim + j))) (bufBit s .va i)

/-- SYN: write the syndrome of VA to SY, or E_NOMAT while the matrix is not locked (R131). -/
def execSyn (s : State) : Host.Outcome State Fault Refusal :=
  if s.mlock then finish (writeBits s .sy Config.codeDim (synBit s)) else raise s .noMat 0

end Sys2Proof.Machine
end

