-- ==== Sys2Proof/Machine/Dispatch.lean ====
section
/-!
DEFINITION. The completion of one decoded command (45_control.md R170): one arm per row of the opcode map.
-/

namespace Sys2Proof.Machine

-- The completion step of a decoded command.
def exec (i : Instr) (s : State) : Host.Outcome State Fault Refusal :=
  match i with
  | .nop => Sys2Proof.Machine.execNop s
  | .zeroize => Sys2Proof.Machine.execZeroize s
  | .piota => Sys2Proof.Machine.execPiota s
  | .pshuf => Sys2Proof.Machine.execPshuf s
  | .papply => Sys2Proof.Machine.execPapply s
  | .ppack => Sys2Proof.Machine.execPpack s
  | .punpk => Sys2Proof.Machine.execPunpk s
  | .pwt v => Sys2Proof.Machine.execPwt v s
  | .syn => Sys2Proof.Machine.execSyn s
  | .bnLdh d => Sys2Proof.Machine.execBnLdh d s
  | .bnMulw d => Sys2Proof.Machine.execBnMulw d s
  | .bnDiv3 d src => Sys2Proof.Machine.execBnDiv3 d src s
  | .bnCopy d src => Sys2Proof.Machine.execBnCopy d src s
  | .bnShrw d k => Sys2Proof.Machine.execBnShrw d k s
  | .chal => Sys2Proof.Machine.execChal s

end Sys2Proof.Machine
end

