-- ==== Sys2Proof/Machine/Engine.lean ====
section
/-!
DEFINITION. The engine's own step, the completion of the command in CMD (45_control.md R170), and one event of
the schedule (00_scope.md R10).
-/

namespace Sys2Proof.Machine

/-- Completion (R170): decode CMD, then fault with E_ILLCMD or run the command's rule. -/
def completeCommand (s : State) : Host.Outcome State Fault Refusal :=
  match decode s.cmd with
  | .ok i => exec i s
  | .error _ => execIllegal s

/-- The engine's turn: its only step is enabled exactly when BUSY = 1 (R170); an engine that is not BUSY
stays as it is (60_exceptions.md R198). -/
def engineTurn (s : State) : Host.Outcome State Fault Refusal :=
  if s.busy then completeCommand s else .next s

/-- One event (R10, R75): a host access or a reset takes full effect at once, or the engine takes its
turn. -/
def perform (s : State) : Event → Host.Outcome State Fault Refusal
  | .read addr width => .next (readEvent s addr width)
  | .write addr width v => .next (writeEvent s addr width v)
  | .reset => .next (resetEvent s)
  | .engine => engineTurn s

end Sys2Proof.Machine
end

