-- ==== Sys2Proof/Machine/Step.lean ====
section
/-!
DEFINITION. One step of the machine: the next event of the schedule, or the engine's turn when nothing else
is to come (00_scope.md R10, 20_memory.md R75, assumption log 2).
-/

namespace Sys2Proof.Machine

/-- One step. With an empty schedule the engine moves, so that a command it has accepted is completed
(R170: "a command accepted is completed after a finite time"). -/
def step (s : State) : Host.Outcome State Fault Refusal :=
  match s.schedule with
  | [] => engineTurn s
  | e :: rest => perform (setSchedule s rest) e

/-- `s` with the command word `w` accepted (45_control.md R171: CMD <- v, DONE <- 0, BUSY <- 1) and the
engine's turn next, so that the very next step completes exactly that command (assumption log 4). -/
def State.withFetchWord (s : State) (nbits w : Nat) : State :=
  setSchedule (accept s (BitVec.ofNat 32 (w % 2 ^ nbits))) (.engine :: s.schedule)

end Sys2Proof.Machine
end

