-- ==== Sys2Proof/Safety.lean ====
section
/-!
DEFINITION. The terms statements about the machine use: the invariant that reset establishes and every step
keeps, the normal form of a big-integer register, and the frame of a big-integer command.
-/

namespace Sys2Proof.Machine

/-- A byte address that belongs to a buffer, pad bytes not counted (20_memory.md R66, R68). -/
abbrev bufferAddress (a : Nat) : Prop := ∃ b ∈ allBufs, bufBase b ≤ a ∧ a < bufBase b + bufSize b

/-- The engine's invariant: what the spec says of every reachable state, and, in its first two clauses, the
canonical form of the memory list, which is the model's choice (DESIGN CHOICE, assumption log 6). -/
structure Inv (s : State) : Prop where
  /-- Memory is in canonical form (the model's own, assumption log 6). -/
  memWf : s.mem.wf
  /-- Memory lists bytes of the buffers only (the model's own, assumption log 6): neither unmapped addresses
  nor pad bytes are stored (R63, R66, R68). -/
  memMapped : ∀ c ∈ s.mem, bufferAddress c.1
  /-- "significant length ≤ capacity" holds in every reachable state (R33). -/
  lenALe : s.lenA.toNat ≤ 32
  /-- The same of BNB (R33). -/
  lenBLe : s.lenB.toNat ≤ 16
  /-- PLEN is 0 to N (R34, R118). -/
  plenLe : s.plen.toNat ≤ 2896
  /-- PKLEN is 0 to 4344 (R35). -/
  pklenLe : s.pklen.toNat ≤ 4344
  /-- WEIGHT is 0 to 2896 (R36). -/
  weightLe : s.weight.toNat ≤ 2896
  /-- REM is in {0, 1, 2}, "never 3" (R32). -/
  remLt : s.rem.toNat < 3
  /-- "In every reachable state every CH[i] is in {0, 1, 2}" (R47). -/
  chDigits : ∀ i < 219, chAt s i < 3
  /-- ERRCODE and ERRINFO are 0 when ERR = 0 (R28, R30). -/
  noRecord : s.err = false → s.errCode = 0 ∧ s.errInfo = 0
  /-- A recorded fault has a code from 1 to 6 (R181: "Codes 7 to 255 are never produced"). -/
  record : s.err = true → 1 ≤ s.errCode.toNat ∧ s.errCode.toNat ≤ 6
  /-- DONE is cleared at acceptance, so it is 0 while BUSY = 1 (R27, R171). -/
  busyNotDone : s.busy = true → s.done = false
  /-- "BUSY = 1 together with ERR = 1 occurs only while a ZEROIZE issued in FAULT runs" (R28). -/
  busyErr : s.busy = true → s.err = true → s.cmd = 0x00000001

/-- "a register is normalised when LEN[d] = 0 or BN[d].w[LEN[d]−1] ≠ 0" (R38). -/
abbrev normalised (s : State) (d : BnSel) : Prop :=
  bnLen s d = 0 ∨ (bnArray s d).getD (bnLen s d - 1) 0 ≠ 0

/-- Every word of BN[d] at index ≥ LEN[d] is 0 (R38, R141). -/
abbrev clearBeyond (s : State) (d : BnSel) : Prop :=
  ∀ i, bnLen s d ≤ i → (bnArray s d).getD i 0 = 0

/-- `s` with BN[d] and LEN[d] as in `t`: the frame of a command that writes one big-integer register. -/
def takeBn (s t : State) : BnSel → State
  | .bna => { s with bna := t.bna, lenA := t.lenA }
  | .bnb => { s with bnb := t.bnb, lenB := t.lenB }

/-- The integer H: the 64 bytes of HASH, the first most significant (20_memory.md R72). -/
def hashVal (s : State) : Nat :=
  ∑ o ∈ Finset.range 64, (bufByte s .hash o).toNat * 256 ^ (63 - o)

/-- H' = floor(H × 3^219 / 2^512) (44_challenge.md R162). -/
def scaledHash (s : State) : Nat := hashVal s * 3 ^ 219 / 2 ^ 512

/-- `s` with the record of a fault and BUSY = 0, nothing else changed (60_exceptions.md R183). -/
def faulted (s : State) (code : BitVec 8) (info : Word) : State :=
  { s with err := true, errCode := code, errInfo := info, busy := false }

/-- `s` with DONE = 1 and BUSY = 0, nothing else changed (45_control.md R170). -/
def completed (s : State) : State := { s with done := true, busy := false }

end Sys2Proof.Machine
end

