-- ==== Sys2Proof/Certificates/Slice0/Obligations.lean ====
section
/-!
DEFINITION. The statements for the provers, from the numbered rules of spec/. `completed` and `faulted`
(Safety.lean) write out the two ends of a command, so an equation `t = completed { s with mem := t.mem }`
says that every field but the ones named is unchanged.
-/

open Sys2Proof Sys2Proof.Machine

/-! ## Encoding (30_encoding.md) -/

/-- Every well-formed command decodes back from its word, every operand at every value (R91, R93, R96). -/
def Obligations.DecodeOfEncodeIsIdentity : Prop :=
  ∀ i : Instr, wellFormed i = true → decode (encode i) = .ok i

/-- Every word the decoder takes is the word of the command it gives, so no word has a second reading and
no bit is dropped (R93, R96). -/
def Obligations.EncodeOfDecodeIsIdentity : Prop :=
  ∀ (c : Word) (i : Instr), decode c = .ok i → wellFormed i = true ∧ encode i = c

/-- The encodings written out in rule R98. -/
def Obligations.SpecExampleWordsDecode : Prop :=
  decode 0x00000031 = .ok (.bnMulw .bna) ∧ decode 0x00000131 = .ok (.bnMulw .bnb) ∧
  decode 0x00000132 = .ok (.bnDiv3 .bnb .bna) ∧ decode 0x00000232 = .ok (.bnDiv3 .bna .bnb) ∧
  decode 0x00000333 = .ok (.bnCopy .bnb .bnb) ∧ decode 0x00100034 = .ok (.bnShrw .bna 16) ∧
  decode 0x00000215 = .ok (.pwt .vb)

/-- A word that matches no row of the map of rule R93 is accepted in IDLE like any command, and its
completion is E_ILLCMD with ERRINFO = the word and no other effect (R95). That the completion is the very
next step, with nothing else to come or with the engine's turn next, is the model's choice (the schedule is
the model's own, assumption log 2). -/
def Obligations.IllegalWordIsAcceptedAndFaults : Prop :=
  ∀ (s : State) (v : Word), s.busy = false → s.err = false →
    (∀ row ∈ ([(0x00000000, 0xFFFFFFFF), (0x00000001, 0xFFFFFFFF), (0x00000010, 0xFFFFFFFF),
        (0x00000011, 0xFFFFFFFF), (0x00000012, 0xFFFFFFFF), (0x00000013, 0xFFFFFFFF),
        (0x00000014, 0xFFFFFFFF), (0x00000015, 0xFFFFFDFF), (0x00000020, 0xFFFFFFFF),
        (0x00000030, 0xFFFFFEFF), (0x00000031, 0xFFFFFEFF), (0x00000032, 0xFFFFFCFF),
        (0x00000033, 0xFFFFFCFF), (0x00000034, 0x0000FEFF), (0x00000040, 0xFFFFFFFF)] :
        List (Word × Word)), v &&& row.2 ≠ row.1) →
    ∃ t, busWrite s 0x0000C .word v = some t ∧
      t = { s with cmd := v, done := false, busy := true } ∧
      (s.schedule = [] → step t = .next (faulted t 1 v)) ∧
      (∀ rest, s.schedule = .engine :: rest → step t = .next (faulted { t with schedule := rest } 1 v))

/-! ## The step (45_control.md R170, 60_exceptions.md) -/

/-- While BUSY = 1 the engine's turn is the completion of the decoded command, whether it comes because
nothing else is to come or because the schedule says so; the step adds only the consumption of that event
(the schedule is the model's own, assumption log 2). -/
def Obligations.StepRunsTheDecodedCommand : Prop :=
  ∀ (s : State) (i : Instr), s.busy = true → decode s.cmd = .ok i →
    (s.schedule = [] → step s = exec i s) ∧
    (∀ rest, s.schedule = .engine :: rest → step s = exec i { s with schedule := rest })

/-- An engine that is not BUSY has no step of its own: its turn changes nothing (R170, R198). When
its turn comes is the model's choice (the schedule is the model's own, assumption log 2). -/
def Obligations.EngineNotBusyStaysAsItIs : Prop :=
  ∀ s : State, s.busy = false →
    (s.schedule = [] → step s = .next s) ∧
    (∀ rest, s.schedule = .engine :: rest → step s = .next { s with schedule := rest })

/-- No state stops the machine: every step answers a next state ("No behaviour of this engine is `stuck`"),
and a step that is the engine's turn ends with BUSY = 0 (R170). That an empty schedule is the engine's turn is
the model's choice (assumption log 2). -/
def Obligations.EveryStepAnswersAndTheEngineFinishes : Prop :=
  ∀ s : State, ∃ t, step s = .next t ∧
    ((s.schedule = [] ∨ ∃ rest, s.schedule = .engine :: rest) → t.busy = false)

/-- Faults are precise (R183, R184): every command either completes, leaving the fault record alone, or ends
in the state before it plus a fault record with a code of rule R181. -/
def Obligations.EveryCommandCompletesOrFaultsPrecisely : Prop :=
  ∀ (i : Instr) (s : State), ∃ t, exec i s = .next t ∧
    ((t.done = true ∧ t.busy = false ∧ t.err = s.err ∧ t.errCode = s.errCode ∧ t.errInfo = s.errInfo) ∨
      ∃ (code : BitVec 8) (info : Word),
        1 ≤ code.toNat ∧ code.toNat ≤ 6 ∧ t = faulted s code info)

/-- Only PPACK, PAPPLY, PUNPK, SYN, BN_MULW, BN_DIV3 and BN_COPY have a check after decode (R188): every
other command completes from every state. -/
def Obligations.CommandsWithoutChecksAlwaysComplete : Prop :=
  ∀ (s : State) (d : BnSel) (v : VecSel) (k : Nat),
    ∀ i ∈ [Instr.nop, .zeroize, .piota, .pshuf, .pwt v, .bnLdh d, .bnShrw d k, .chal],
      ∃ t, exec i s = .next t ∧ t.done = true ∧ t.busy = false ∧ t.err = s.err ∧
        t.errCode = s.errCode ∧ t.errInfo = s.errInfo

/-- What no command touches (R45, R52): CMD, CTRL and HM; and but for ZEROIZE also OPW and the buffers VA,
HASH and ENT. -/
def Obligations.CommandsLeaveTheirInputsAlone : Prop :=
  ∀ (i : Instr) (s t : State), exec i s = .next t →
    t.cmd = s.cmd ∧ t.ieDone = s.ieDone ∧ t.ieErr = s.ieErr ∧ t.mlock = s.mlock ∧
    t.resets = s.resets ∧ t.schedule = s.schedule ∧ t.replies = s.replies ∧
    (∀ o < 262088, bufByte t .hm o = bufByte s .hm o) ∧
    (i ≠ .zeroize → t.opw = s.opw ∧ (∀ o < 362, bufByte t .va o = bufByte s .va o) ∧
      (∀ o < 64, bufByte t .hash o = bufByte s .hash o) ∧ (∀ j < 2896, entAt t j = entAt s j))

/-! ## NOP and ZEROIZE (45_control.md) -/

/-- NOP does nothing but complete, and in FAULT its word is refused (R172). -/
def Obligations.NopOnlyCompletes : Prop :=
  decode 0x00000000 = .ok .nop ∧ (∀ s : State, exec .nop s = .next (completed s)) ∧
  ∀ s : State, s.err = true → busWrite s 0x0000C .word 0x00000000 = none

/-- ZEROIZE clears every secret-bearing buffer and register and nothing else (R173). -/
def Obligations.ZeroizeClearsEverySecret : Prop :=
  decode 0x00000001 = .ok .zeroize ∧
  ∀ s : State, ∃ t, exec .zeroize s = .next t ∧
    (∀ b : Buf, b ≠ .hm → ∀ o < bufSize b, bufByte t b o = 0) ∧
    (∀ a, (∀ b : Buf, b ≠ .hm → ¬(bufBase b ≤ a ∧ a < bufBase b + bufSize b)) →
      readByte t a = readByte s a) ∧
    (∀ d, ∀ w ∈ bnArray t d, w = 0) ∧
    t = completed { s with mem := t.mem, bna := t.bna, bnb := t.bnb, lenA := 0, lenB := 0, opw := 0,
                           rem := 0, weight := 0 }

/-! ## The PERM unit (41_permutation_packer.md) -/

/-- PIOTA loads the identity into SIG[0..L−1] and changes nothing else (R113). -/
def Obligations.PiotaLoadsTheIdentity : Prop :=
  decode 0x00000010 = .ok .piota ∧
  ∀ s : State, ∃ t, exec .piota s = .next t ∧
    (∀ i < s.plen.toNat, (sigAt t i).toNat = i) ∧
    (∀ a, ¬(bufBase .sig ≤ a ∧ a < bufBase .sig + 2 * s.plen.toNat) → readByte t a = readByte s a) ∧
    t = completed { s with mem := t.mem }

/-- PSHUF arranges the keys ENT[i] × 65536 + SIG[i] in ascending order and leaves their low 16 bits in
SIG[0..L−1], so the same multiset of index values, changing nothing else (R114). -/
def Obligations.PshufSortsTheKeys : Prop :=
  decode 0x00000011 = .ok .pshuf ∧
  ∀ s : State, ∃ (keys : List Nat) (t : State), exec .pshuf s = .next t ∧
    keys.Perm ((List.range s.plen.toNat).map fun i => (entAt s i).toNat * 65536 + (sigAt s i).toNat) ∧
    keys.Pairwise (· ≤ ·) ∧
    (∀ i < s.plen.toNat, (sigAt t i).toNat = keys.getD i 0 % 65536) ∧
    ((List.range s.plen.toNat).map (sigAt t)).Perm ((List.range s.plen.toNat).map (sigAt s)) ∧
    (∀ a, ¬(bufBase .sig ≤ a ∧ a < bufBase .sig + 2 * s.plen.toNat) → readByte t a = readByte s a) ∧
    t = completed { s with mem := t.mem }

/-- PAPPLY: VB.bit[i] = VA.bit[SIG[i]] for i < L, pad bits of the last byte 0, nothing else changed; or
E_INDEX with the lowest i whose SIG[i] ≥ L (R115). -/
def Obligations.PapplyPermutesBitsOrFaultsAtLowestIndex : Prop :=
  decode 0x00000012 = .ok .papply ∧
  (∀ s : State, (∀ i < s.plen.toNat, (sigAt s i).toNat < s.plen.toNat) →
    ∃ t, exec .papply s = .next t ∧
      (∀ i < s.plen.toNat, bufBit t .vb i = bufBit s .va (sigAt s i).toNat) ∧
      (∀ i, s.plen.toNat ≤ i → i < 8 * ((s.plen.toNat + 7) / 8) → bufBit t .vb i = false) ∧
      (∀ a, ¬(bufBase .vb ≤ a ∧ a < bufBase .vb + (s.plen.toNat + 7) / 8) →
        readByte t a = readByte s a) ∧
      t = completed { s with mem := t.mem }) ∧
  (∀ (s : State) (i : Nat), i < s.plen.toNat → s.plen.toNat ≤ (sigAt s i).toNat →
    (∀ j < i, (sigAt s j).toNat < s.plen.toNat) →
    exec .papply s = .next (faulted s 5 (BitVec.ofNat 32 i)))

/-- If SIG[0..L−1] is a bijection on 0 to L − 1, PAPPLY leaves as many set bits in VB[0..L−1] as VA[0..L−1]
has (R115). -/
def Obligations.PapplyByABijectionKeepsTheWeight : Prop :=
  ∀ s : State, (∀ i < s.plen.toNat, (sigAt s i).toNat < s.plen.toNat) →
    (∀ i < s.plen.toNat, ∀ j < s.plen.toNat, sigAt s i = sigAt s j → i = j) →
    ∃ t, exec .papply s = .next t ∧
      (List.range s.plen.toNat).countP (fun i => bufBit t .vb i) =
        (List.range s.plen.toNat).countP (fun i => bufBit s .va i)

/-- PPACK: two 12-bit indices per three bytes and PKLEN = 3 L / 2, nothing else changed; or E_ODD when L is
odd; or E_INDEX with the lowest i whose SIG[i] ≥ 4096 (R116). -/
def Obligations.PpackPacksTwelveBitIndicesOrFaults : Prop :=
  decode 0x00000013 = .ok .ppack ∧
  (∀ s : State, s.plen.toNat % 2 = 0 → (∀ i < s.plen.toNat, (sigAt s i).toNat < 4096) →
    ∃ t, exec .ppack s = .next t ∧
      (∀ u < s.plen.toNat / 2,
        (bufByte t .pk (3 * u)).toNat = (sigAt s (2 * u)).toNat / 16 ∧
        (bufByte t .pk (3 * u + 1)).toNat =
          (sigAt s (2 * u)).toNat % 16 * 16 + (sigAt s (2 * u + 1)).toNat / 256 ∧
        (bufByte t .pk (3 * u + 2)).toNat = (sigAt s (2 * u + 1)).toNat % 256) ∧
      (∀ a, ¬(bufBase .pk ≤ a ∧ a < bufBase .pk + 3 * s.plen.toNat / 2) →
        readByte t a = readByte s a) ∧
      t.pklen.toNat = 3 * s.plen.toNat / 2 ∧
      t = completed { s with mem := t.mem, pklen := t.pklen }) ∧
  (∀ s : State, s.plen.toNat % 2 = 1 →
    exec .ppack s = .next (faulted s 3 (BitVec.ofNat 32 s.plen.toNat))) ∧
  (∀ (s : State) (i : Nat), s.plen.toNat % 2 = 0 → i < s.plen.toNat → 4096 ≤ (sigAt s i).toNat →
    (∀ j < i, (sigAt s j).toNat < 4096) →
    exec .ppack s = .next (faulted s 5 (BitVec.ofNat 32 i)))

/-- PUNPK: SIG[0..2B/3−1] from the 12-bit fields and PLEN = 2 B / 3, nothing else changed; or E_PKLEN when B
is not a multiple of 3 (R118). The bound on B is the invariant of rule R35. -/
def Obligations.PunpkUnpacksTwelveBitIndicesOrFaults : Prop :=
  decode 0x00000014 = .ok .punpk ∧
  (∀ s : State, s.pklen.toNat ≤ 4344 → s.pklen.toNat % 3 = 0 →
    ∃ t, exec .punpk s = .next t ∧
      (∀ u < s.pklen.toNat / 3,
        (sigAt t (2 * u)).toNat =
          (bufByte s .pk (3 * u)).toNat * 16 + (bufByte s .pk (3 * u + 1)).toNat / 16 ∧
        (sigAt t (2 * u + 1)).toNat =
          (bufByte s .pk (3 * u + 1)).toNat % 16 * 256 + (bufByte s .pk (3 * u + 2)).toNat) ∧
      (∀ a, ¬(bufBase .sig ≤ a ∧ a < bufBase .sig + 2 * (2 * s.pklen.toNat / 3)) →
        readByte t a = readByte s a) ∧
      t.plen.toNat = 2 * s.pklen.toNat / 3 ∧
      t = completed { s with mem := t.mem, plen := t.plen }) ∧
  (∀ s : State, s.pklen.toNat % 3 ≠ 0 →
    exec .punpk s = .next (faulted s 4 (BitVec.ofNat 32 s.pklen.toNat)))

/-- PPACK then PUNPK restores SIG[0..L−1] and PLEN, and PUNPK then PPACK restores PK[0..PKLEN−1] and PKLEN
(R117). -/
def Obligations.PackAndUnpackAreInverse : Prop :=
  (∀ s : State, s.plen.toNat % 2 = 0 → (∀ i < s.plen.toNat, (sigAt s i).toNat < 4096) →
    ∃ t u, exec .ppack s = .next t ∧ exec .punpk t = .next u ∧ u.plen = s.plen ∧
      ∀ i < s.plen.toNat, sigAt u i = sigAt s i) ∧
  (∀ s : State, s.pklen.toNat ≤ 4344 → s.pklen.toNat % 3 = 0 →
    ∃ t u, exec .punpk s = .next t ∧ exec .ppack t = .next u ∧ u.pklen = s.pklen ∧
      ∀ o < s.pklen.toNat, bufByte u .pk o = bufByte s .pk o)

/-- PWT counts the set bits among bits 0 to 2895 of VA or VB, whatever PLEN is, and changes only WEIGHT
(R119). -/
def Obligations.PwtCountsTheSetBits : Prop :=
  decode 0x00000015 = .ok (.pwt .va) ∧ decode 0x00000215 = .ok (.pwt .vb) ∧
  ∀ s : State,
    (∃ t, exec (.pwt .va) s = .next t ∧
      t.weight.toNat = ((List.range 2896).filter fun i => bufBit s .va i).length ∧
      t = completed { s with weight := t.weight }) ∧
    (∃ t, exec (.pwt .vb) s = .next t ∧
      t.weight.toNat = ((List.range 2896).filter fun i => bufBit s .vb i).length ∧
      t = completed { s with weight := t.weight })

/-! ## The SYN unit (42_syndrome.md) -/

/-- SYN: bit i of SY is key bit i ⊕ the parity of row i of M against key bits R to N − 1, every byte of SY
is written and nothing else; or E_NOMAT while the matrix is not locked (R131). -/
def Obligations.SynMultipliesByTheMatrixOrFaults : Prop :=
  decode 0x00000020 = .ok .syn ∧
  (∀ s : State, s.mlock = true →
    ∃ t, exec .syn s = .next t ∧
      (∀ i < 1448, bufBit t .sy i =
        (bufBit s .va i ^^ decide (((List.range 1448).countP fun j =>
          (bufByte s .hm (181 * i + j / 8)).getLsbD (7 - j % 8) && bufBit s .va (1448 + j)) % 2 = 1))) ∧
      (∀ a, ¬(bufBase .sy ≤ a ∧ a < bufBase .sy + 181) → readByte t a = readByte s a) ∧
      t = completed { s with mem := t.mem }) ∧
  (∀ s : State, s.mlock = false → exec .syn s = .next (faulted s 6 0))

/-- The product is linear over GF(2) (R132). -/
def Obligations.SyndromeIsLinear : Prop :=
  ∀ a b c : State, a.mlock = true → b.mlock = true → c.mlock = true →
    (∀ o < 262088, bufByte b .hm o = bufByte a .hm o ∧ bufByte c .hm o = bufByte a .hm o) →
    (∀ i < 2896, bufBit c .va i = (bufBit a .va i ^^ bufBit b .va i)) →
    ∃ a' b' c', exec .syn a = .next a' ∧ exec .syn b = .next b' ∧ exec .syn c = .next c' ∧
      ∀ i < 1448, bufBit c' .sy i = (bufBit a' .sy i ^^ bufBit b' .sy i)

/-! ## The BN unit (43_bignum.md) -/

/-- BN_LDH d: BN[d] takes the value of the hash, normalised, with zeros beyond its length; nothing else
changes (R143). -/
def Obligations.BnLdhLoadsTheHash : Prop :=
  decode 0x00000030 = .ok (.bnLdh .bna) ∧ decode 0x00000130 = .ok (.bnLdh .bnb) ∧
  ∀ (s : State) (d : BnSel), ∃ t, exec (.bnLdh d) s = .next t ∧
    bnVal t d = hashVal s ∧ bnLen t d ≤ 16 ∧ normalised t d ∧ clearBeyond t d ∧
    t = completed (takeBn s t d)

/-- BN_MULW d: the product is exact and the length grows by one exactly when it must; a product beyond the
capacity is E_CAP(CAP + 1) (R144). The bound on the length is the invariant of rule R33. -/
def Obligations.BnMulwIsExactOrFaults : Prop :=
  decode 0x00000031 = .ok (.bnMulw .bna) ∧ decode 0x00000131 = .ok (.bnMulw .bnb) ∧
  (∀ (s : State) (d : BnSel), bnLen s d ≤ bnCap d → bnVal s d * s.opw.toNat < 2 ^ (32 * bnCap d) →
    ∃ t, exec (.bnMulw d) s = .next t ∧
      bnVal t d = bnVal s d * s.opw.toNat ∧
      bnLen t d = (if s.opw = 0 then 0
        else if bnVal s d * s.opw.toNat < 2 ^ (32 * bnLen s d) then bnLen s d else bnLen s d + 1) ∧
      clearBeyond t d ∧ t = completed (takeBn s t d)) ∧
  (∀ (s : State) (d : BnSel), bnLen s d ≤ bnCap d → 2 ^ (32 * bnCap d) ≤ bnVal s d * s.opw.toNat →
    exec (.bnMulw d) s = .next (faulted s 2 (BitVec.ofNat 32 (bnCap d + 1))))

/-- BN_DIV3 d, s: exact quotient and remainder, the quotient one word shorter when the top word is below 3;
a quotient longer than the destination's capacity is E_CAP (R146). -/
def Obligations.BnDiv3IsExactOrFaults : Prop :=
  decode 0x00000032 = .ok (.bnDiv3 .bna .bna) ∧ decode 0x00000132 = .ok (.bnDiv3 .bnb .bna) ∧
  decode 0x00000232 = .ok (.bnDiv3 .bna .bnb) ∧ decode 0x00000332 = .ok (.bnDiv3 .bnb .bnb) ∧
  (∀ (s : State) (d src : BnSel) (n : Nat), bnLen s src ≤ bnCap src →
    n = (if bnLen s src = 0 then 0
      else if ((bnArray s src).getD (bnLen s src - 1) 0).toNat < 3 then bnLen s src - 1
      else bnLen s src) →
    (n ≤ bnCap d → ∃ t, exec (.bnDiv3 d src) s = .next t ∧
      bnVal t d * 3 + t.rem.toNat = bnVal s src ∧ t.rem.toNat < 3 ∧ bnLen t d = n ∧ clearBeyond t d ∧
      t = completed (takeBn { s with rem := t.rem } t d)) ∧
    (bnCap d < n → exec (.bnDiv3 d src) s = .next (faulted s 2 (BitVec.ofNat 32 n))))

/-- The reciprocal estimate with its one-step correction gives the quotient and remainder of rule R146, and
the raw remainder is below 6 (R147). -/
def Obligations.ReciprocalEstimateIsCorrect : Prop :=
  ∀ v < 3 * 2 ^ 32,
    v - 3 * (v * 0x55555555 / 2 ^ 32) < 6 ∧ recipDiv v = (v / 3, v % 3)

/-- BN_COPY d, s: the words and the length, zeros beyond; a source longer than the destination's capacity is
E_CAP (R148). -/
def Obligations.BnCopyCopiesOrFaults : Prop :=
  decode 0x00000033 = .ok (.bnCopy .bna .bna) ∧ decode 0x00000133 = .ok (.bnCopy .bnb .bna) ∧
  decode 0x00000233 = .ok (.bnCopy .bna .bnb) ∧ decode 0x00000333 = .ok (.bnCopy .bnb .bnb) ∧
  (∀ (s : State) (d src : BnSel), bnLen s src ≤ bnCap src → bnLen s src ≤ bnCap d →
    ∃ t, exec (.bnCopy d src) s = .next t ∧
      bnLen t d = bnLen s src ∧
      (∀ i < bnLen s src, (bnArray t d).getD i 0 = (bnArray s src).getD i 0) ∧
      clearBeyond t d ∧ t = completed (takeBn s t d)) ∧
  (∀ (s : State) (d src : BnSel), bnLen s src ≤ bnCap src → bnCap d < bnLen s src →
    exec (.bnCopy d src) s = .next (faulted s 2 (BitVec.ofNat 32 (bnLen s src))))

/-- BN_SHRW d, k: floor division by 2^(32 k), normalised from any state, zeros beyond (R149). -/
def Obligations.BnShrwDividesByWordPowers : Prop :=
  (∀ k < 65536, decode (BitVec.ofNat 32 (0x34 + 65536 * k)) = .ok (.bnShrw .bna k) ∧
    decode (BitVec.ofNat 32 (0x134 + 65536 * k)) = .ok (.bnShrw .bnb k)) ∧
  ∀ (s : State) (d : BnSel) (k : Nat), ∃ t, exec (.bnShrw d k) s = .next t ∧
    bnVal t d = bnVal s d / 2 ^ (32 * k) ∧ normalised t d ∧ clearBeyond t d ∧
    t = completed (takeBn s t d)

/-- Normalised operands give a normalised destination; BN_LDH and BN_SHRW do so from any state (R152). The
premises on DONE single out completion without fault; the bounds on lengths are the invariant of R33. -/
def Obligations.BigIntegerCommandsKeepNormalForm : Prop :=
  ∀ (s t : State) (d src : BnSel) (k : Nat), s.done = false → t.done = true →
    (∀ r, bnLen s r ≤ bnCap r) →
    (exec (.bnLdh d) s = .next t → normalised t d) ∧
    (exec (.bnShrw d k) s = .next t → normalised t d) ∧
    (normalised s d → exec (.bnMulw d) s = .next t → normalised t d) ∧
    (normalised s src → exec (.bnDiv3 d src) s = .next t → normalised t d) ∧
    (normalised s src → exec (.bnCopy d src) s = .next t → normalised t d)

/-! ## The CHAL unit (44_challenge.md) -/

/-- CHAL: CH[i] = (H' div 3^(218 − i)) mod 3 with H' = floor(H × 3^219 / 2^512) (R164); BNA is zero with length
0; REM is the most significant non-zero digit of H', or unchanged when H' = 0; nothing else changes
(R163). -/
def Obligations.ChalWritesTheBase3DigitsOfTheScaledHash : Prop :=
  decode 0x00000040 = .ok .chal ∧
  ∀ s : State, ∃ t, exec .chal s = .next t ∧
    (∀ i < 219, chAt t i = scaledHash s / 3 ^ (218 - i) % 3) ∧
    (∀ a, ¬(bufBase .ch ≤ a ∧ a < bufBase .ch + 219) → readByte t a = readByte s a) ∧
    (∀ w ∈ bnArray t .bna, w = 0) ∧ bnLen t .bna = 0 ∧
    (scaledHash s = 0 → t.rem = s.rem) ∧
    (∀ j, 3 ^ j ≤ scaledHash s → scaledHash s < 3 ^ (j + 1) → t.rem.toNat = scaledHash s / 3 ^ j) ∧
    t = completed { s with mem := t.mem, bna := t.bna, lenA := 0, rem := t.rem }

/-- The digits spell H' in base 3, most significant first: H' = Σ CH[i] × 3^(218 − i) (R164). -/
def Obligations.ChalDigitsSumToTheScaledHash : Prop :=
  ∀ s : State, ∃ t, exec .chal s = .next t ∧
    scaledHash s = ∑ i ∈ Finset.range 219, chAt t i * 3 ^ (218 - i)

/-! ## Reset and the invariant -/

/-- The values of rule R51 right after reset. -/
def Obligations.ResetStateHasTheListedValues : Prop :=
  let s := State.reset
  s.cmd = 0 ∧ statusWord s = 0 ∧ ctrlWord s = 0 ∧ s.errInfo = 0 ∧ s.opw = 0 ∧ s.rem = 0 ∧ s.lenA = 0 ∧
  s.lenB = 0 ∧ s.weight = 0 ∧ s.plen.toNat = 2896 ∧ s.pklen.toNat = 4344 ∧
  (∀ d, ∀ w ∈ bnArray s d, w = 0) ∧ (∀ b : Buf, b ≠ .hm → ∀ o < bufSize b, bufByte s b o = 0) ∧
  irq s = false

/-- The invariant holds right after reset. Its clauses `memWf` and `memMapped`, the canonical form of the memory
list, are the model's choice (assumption log 6); the others are the spec's. -/
def Obligations.ResetSatisfiesTheInvariant : Prop := Inv State.reset

/-- Every step, of the host or of the engine, keeps the invariant. Its clauses `memWf` and `memMapped`, the
canonical form of the memory list, are the model's choice (assumption log 6); the others are the spec's. -/
def Obligations.EveryStepKeepsTheInvariant : Prop :=
  ∀ s t : State, Inv s → step s = .next t → Inv t

/-- Reset in any state, also while BUSY, leaves the reset state with no trace of the command (R210, R211);
HM becomes unspecified anew (a new epoch of the free value, assumption log 1), and that the model's own record of
responses and of what is to come stays is the model's choice (assumption logs 2 and 3). -/
def Obligations.ResetInAnyStateGivesTheResetState : Prop :=
  ∀ (s : State) (rest : List Event), s.schedule = .reset :: rest →
    step s = .next { State.reset with resets := s.resets + 1, schedule := rest, replies := s.replies }

/-- Once MLOCK = 1, every event but reset leaves MLOCK and every byte of HM as they are (R29, R45, R210). -/
def Obligations.LockedMatrixIsFixedUntilReset : Prop :=
  ∀ s t : State, step s = .next t → s.mlock = true → (∀ rest, s.schedule ≠ .reset :: rest) →
    t.mlock = true ∧ ∀ o < 262088, bufByte t .hm o = bufByte s .hm o

/-- A fault record is neither cleared nor overwritten except by the acknowledge (a write to STATUS with bit
2 set) and reset (R187). The premise on CMD is part of the invariant (R28). -/
def Obligations.FaultRecordLastsUntilAcknowledged : Prop :=
  ∀ s t : State, step s = .next t → s.err = true → (s.busy = true → s.cmd = 0x00000001) →
    (∀ rest, s.schedule ≠ .reset :: rest) →
    (∀ v rest, s.schedule = .write 0x00010 .word v :: rest → v.getLsbD 2 = false) →
    t.err = true ∧ t.errCode = s.errCode ∧ t.errInfo = s.errInfo

/-- While BUSY = 1 no event but the engine's turn and reset changes anything but STATUS.DONE, the fault
record, CTRL and the model's own schedule and responses (R48, R64, R170; assumption logs 2 and 3). -/
def Obligations.NothingDisturbsARunningCommand : Prop :=
  ∀ (s t : State) (e : Event) (rest : List Event), s.busy = true → s.schedule = e :: rest →
    e ≠ .engine → e ≠ .reset → step s = .next t →
    t = { s with done := t.done, err := t.err, errCode := t.errCode, errInfo := t.errInfo,
                 ieDone := t.ieDone, ieErr := t.ieErr, mlock := t.mlock,
                 schedule := rest, replies := t.replies }

/-! ## The bus (20_memory.md) -/

/-- A host read, and a refused write, change nothing but the record of responses and the schedule (R60, R62,
R75, R190); the read is answered by `busRead` and the refused write by ERROR. The record of responses and
the schedule are the model's own (assumption logs 2 and 3). -/
def Obligations.ReadsAndRefusedWritesChangeNothing : Prop :=
  ∀ (s : State) (addr : BitVec 19) (width : Width) (v : Word) (rest : List Event),
    (s.schedule = .read addr width :: rest →
      step s = .next { s with schedule := rest, replies := busRead s addr width :: s.replies }) ∧
    (s.schedule = .write addr width v :: rest → busWrite s addr width v = none →
      step s = .next { s with schedule := rest, replies := .error :: s.replies })

/-- A write answered OKAY takes full effect at once (R75). The record of responses and the schedule are the
model's own (assumption logs 2 and 3). -/
def Obligations.AcceptedWriteTakesEffectAtOnce : Prop :=
  ∀ (s t : State) (addr : BitVec 19) (width : Width) (v : Word) (rest : List Event),
    s.schedule = .write addr width v :: rest → busWrite s addr width v = some t →
    step s = .next { t with schedule := rest, replies := .okay :: s.replies }

/-- Accesses that are not aligned 32-bit ones, and accesses outside every region of the map of rule R66, are
refused (R61, R63). -/
def Obligations.OnlyAlignedMappedWordsAreAccessible : Prop :=
  ∀ (s : State) (addr : BitVec 19) (width : Width) (v : Word),
    (width ≠ .word ∨ addr.toNat % 4 ≠ 0 ∨
      ∀ r ∈ ([(0x00000, 0x00037), (0x00100, 0x0017F), (0x00180, 0x001BF), (0x00200, 0x0023F),
          (0x00300, 0x003DB), (0x00400, 0x0056B), (0x00600, 0x0076B), (0x00800, 0x008B7),
          (0x01000, 0x0269F), (0x03000, 0x040F7), (0x05000, 0x07D3F), (0x40000, 0x7FFC7)] :
          List (Nat × Nat)), ¬(r.1 ≤ addr.toNat ∧ addr.toNat ≤ r.2)) →
    busRead s addr width = .error ∧ busWrite s addr width v = none

/-- While BUSY = 1 exactly the registers are readable, and exactly STATUS and CTRL are writable (R64). -/
def Obligations.BusyEngineAllowsRegisterReadsAndFlagWrites : Prop :=
  ∀ (s : State) (addr : BitVec 19) (v : Word), s.busy = true → addr.toNat % 4 = 0 →
    (busRead s addr .word ≠ .error ↔ addr.toNat ≤ 0x34) ∧
    (busWrite s addr .word v ≠ none ↔ addr.toNat = 0x10 ∨ addr.toNat = 0x14)

/-- Writes refused in every state: read-only registers, read-only buffers, HM while locked, a length above its
legal maximum, and a CMD write that is not accepted (R65). -/
def Obligations.ReadOnlyAndOutOfRangeWritesAreRefused : Prop :=
  ∀ (s : State) (addr : BitVec 19) (v : Word),
    (addr.toNat ∈ [0x00, 0x04, 0x08, 0x18, 0x20, 0x34] ∨
      (0x300 ≤ addr.toNat ∧ addr.toNat ≤ 0x3DB) ∨ (0x600 ≤ addr.toNat ∧ addr.toNat ≤ 0x76B) ∨
      (0x800 ≤ addr.toNat ∧ addr.toNat ≤ 0x8B7) ∨ (s.mlock = true ∧ 0x40000 ≤ addr.toNat) ∨
      (addr.toNat = 0x24 ∧ 32 < v.toNat) ∨ (addr.toNat = 0x28 ∧ 16 < v.toNat) ∨
      (addr.toNat = 0x2C ∧ 2896 < v.toNat) ∨ (addr.toNat = 0x30 ∧ 4344 < v.toNat) ∨
      (addr.toNat = 0x0C ∧ ¬(s.busy = false ∧ (s.err = false ∨ v = 0x00000001)))) →
    busWrite s addr .word v = none

/-- A write of `v` to CMD is accepted in IDLE for every `v` and in FAULT for the ZEROIZE word only, and then
CMD <- v, DONE <- 0, BUSY <- 1; in every other case it is refused (R171). -/
def Obligations.CommandAcceptanceRule : Prop :=
  ∀ (s : State) (v : Word), busWrite s 0x0000C .word v =
    if s.busy = false ∧ (s.err = false ∨ v = 0x00000001) then
      some { s with cmd := v, done := false, busy := true }
    else none

/-- A write to STATUS acts in every state and on bits 1 and 2 only: bit 2 acknowledges a fault, clearing ERR,
ERRCODE and ERRINFO; bit 1 clears DONE (R28, R186). -/
def Obligations.StatusWriteAcknowledgesAndClearsDone : Prop :=
  ∀ (s : State) (v : Word), busWrite s 0x00010 .word v =
    some { s with
      done := if v.getLsbD 1 then false else s.done,
      err := if v.getLsbD 2 then false else s.err,
      errCode := if v.getLsbD 2 && s.err then 0 else s.errCode,
      errInfo := if v.getLsbD 2 && s.err then 0 else s.errInfo }

/-- What STATUS reads as (R28): the flags, the copy of MLOCK, ERRCODE, and zeros elsewhere. -/
def Obligations.StatusReadsAsItsFields : Prop :=
  ∀ s : State, ∃ v : Word, busRead s 0x00010 .word = .data v ∧
    v.getLsbD 0 = s.busy ∧ v.getLsbD 1 = s.done ∧ v.getLsbD 2 = s.err ∧ v.getLsbD 3 = s.mlock ∧
    v.extractLsb' 4 4 = 0 ∧ v.extractLsb' 8 8 = s.errCode ∧ v.extractLsb' 16 16 = 0

/-- CTRL (R29): a write acts in every state, bits 0 and 1 take the written value, MLOCK is set by a 1 and
never cleared; a read returns the three bits and zeros elsewhere. -/
def Obligations.CtrlWritesEnablesAndSetsTheLock : Prop :=
  (∀ (s : State) (v : Word), busWrite s 0x00014 .word v =
    some { s with ieDone := v.getLsbD 0, ieErr := v.getLsbD 1, mlock := s.mlock || v.getLsbD 8 }) ∧
  (∀ s : State, ∃ v : Word, busRead s 0x00014 .word = .data v ∧
    v.getLsbD 0 = s.ieDone ∧ v.getLsbD 1 = s.ieErr ∧ v.getLsbD 8 = s.mlock ∧
    v.extractLsb' 2 6 = 0 ∧ v.extractLsb' 9 23 = 0)

/-- The identification and parameter registers read their constants in every state (R24, R25, R26). -/
def Obligations.IdentityRegistersReadTheirConstants : Prop :=
  ∀ s : State, busRead s 0x00000 .word = .data 0x53485031 ∧
    busRead s 0x00004 .word = .data 0x05A80B50 ∧ busRead s 0x00008 .word = .data 0x00DB013E

/-- OPW and the length registers (R22, R31, R33, R34, R35): a read returns the field in every state, also while
BUSY; when not BUSY a legal value written becomes the field's value, is read back, and nothing else changes. -/
def Obligations.OperandRegistersStoreLegalValues : Prop :=
  (∀ s : State,
    busRead s 0x0001C .word = .data s.opw ∧
    busRead s 0x00024 .word = .data (s.lenA.setWidth 32) ∧
    busRead s 0x00028 .word = .data (s.lenB.setWidth 32) ∧
    busRead s 0x0002C .word = .data (s.plen.setWidth 32) ∧
    busRead s 0x00030 .word = .data (s.pklen.setWidth 32)) ∧
  ∀ (s : State) (v : Word), s.busy = false →
    (∃ t, busWrite s 0x0001C .word v = some t ∧ t = { s with opw := v } ∧
      busRead t 0x0001C .word = .data v) ∧
    (v.toNat ≤ 32 → ∃ t, busWrite s 0x00024 .word v = some t ∧ t = { s with lenA := t.lenA } ∧
      t.lenA.toNat = v.toNat ∧ busRead t 0x00024 .word = .data v) ∧
    (v.toNat ≤ 16 → ∃ t, busWrite s 0x00028 .word v = some t ∧ t = { s with lenB := t.lenB } ∧
      t.lenB.toNat = v.toNat ∧ busRead t 0x00028 .word = .data v) ∧
    (v.toNat ≤ 2896 → ∃ t, busWrite s 0x0002C .word v = some t ∧ t = { s with plen := t.plen } ∧
      t.plen.toNat = v.toNat ∧ busRead t 0x0002C .word = .data v) ∧
    (v.toNat ≤ 4344 → ∃ t, busWrite s 0x00030 .word v = some t ∧ t = { s with pklen := t.pklen } ∧
      t.pklen.toNat = v.toNat ∧ busRead t 0x00030 .word = .data v)

/-- A word written to a host-writable buffer when not BUSY is stored byte by byte, lowest offset in bits
[7:0]; pad bytes ignore the write; every other byte of memory and every other field stays (R67, R68). -/
def Obligations.BufferWriteStoresLittleEndianBytes : Prop :=
  ∀ (s : State) (b : Buf) (q : Nat) (v : Word), s.busy = false →
    b ∈ [Buf.hash, .va, .sig, .pk, .ent, .hm] → (b = .hm → s.mlock = false) → 4 * q < bufSize b →
    ∃ t, busWrite s (BitVec.ofNat 19 (bufBase b + 4 * q)) .word v = some t ∧
      (∀ k < 4, 4 * q + k < bufSize b → bufByte t b (4 * q + k) = v.extractLsb' (8 * k) 8) ∧
      (∀ a, ¬(bufBase b + 4 * q ≤ a ∧ a < bufBase b + 4 * q + 4 ∧ a < bufBase b + bufSize b) →
        readByte t a = readByte s a) ∧
      t = { s with mem := t.mem }

/-- A read of a buffer word when not BUSY returns its four bytes in lane order, 0 in the lanes of pad bytes
and in bits [7:2] of a CH byte (R67, R68). -/
def Obligations.BufferReadReturnsLittleEndianBytes : Prop :=
  ∀ (s : State) (b : Buf) (q : Nat), s.busy = false → 4 * q < bufSize b →
    ∃ v : Word, busRead s (BitVec.ofNat 19 (bufBase b + 4 * q)) .word = .data v ∧
      ∀ k < 4, (v.extractLsb' (8 * k) 8).toNat =
        if bufSize b ≤ 4 * q + k then 0
        else if b = .ch then (bufByte s b (4 * q + k)).toNat % 4
        else (bufByte s b (4 * q + k)).toNat

/-- Word i of a big-integer register when not BUSY: a host read returns the word the commands see, a word
written becomes that word and is read back, every other word and every other field stays (R37, R69). -/
def Obligations.BigIntegerWordsAreStoredWhole : Prop :=
  (∀ (s : State) (i : Nat), s.busy = false → i < 32 →
    busRead s (BitVec.ofNat 19 (0x100 + 4 * i)) .word = .data ((bnArray s .bna).getD i 0) ∧
    ∀ v : Word, ∃ t, busWrite s (BitVec.ofNat 19 (0x100 + 4 * i)) .word v = some t ∧
      (bnArray t .bna).getD i 0 = v ∧ busRead t (BitVec.ofNat 19 (0x100 + 4 * i)) .word = .data v ∧
      (∀ j, j ≠ i → (bnArray t .bna).getD j 0 = (bnArray s .bna).getD j 0) ∧
      t = { s with bna := t.bna }) ∧
  (∀ (s : State) (i : Nat), s.busy = false → i < 16 →
    busRead s (BitVec.ofNat 19 (0x180 + 4 * i)) .word = .data ((bnArray s .bnb).getD i 0) ∧
    ∀ v : Word, ∃ t, busWrite s (BitVec.ofNat 19 (0x180 + 4 * i)) .word v = some t ∧
      (bnArray t .bnb).getD i 0 = v ∧ busRead t (BitVec.ofNat 19 (0x180 + 4 * i)) .word = .data v ∧
      (∀ j, j ≠ i → (bnArray t .bnb).getD j 0 = (bnArray s .bnb).getD j 0) ∧
      t = { s with bnb := t.bnb })

/-- The interrupt line is (DONE & IE_DONE) | (ERR & IE_ERR) (R49, R189). -/
def Obligations.IrqIsTheEnabledFlags : Prop :=
  ∀ s : State, irq s = true ↔
    (s.done = true ∧ s.ieDone = true) ∨ (s.err = true ∧ s.ieErr = true)

/-- CMD, ERRINFO, REM and WEIGHT read as their fields in every state, also while BUSY, with zeros above the
field (R22, R27, R30, R32, R36). -/
def Obligations.ResultRegistersReadTheirFields : Prop :=
  ∀ s : State,
    busRead s 0x0000C .word = .data s.cmd ∧
    busRead s 0x00018 .word = .data s.errInfo ∧
    busRead s 0x00020 .word = .data (s.rem.setWidth 32) ∧
    busRead s 0x00034 .word = .data (s.weight.setWidth 32)
end

