-- ==== Sys2Proof/Laws/State.lean ====
section
/-!
SUPPORT. Field lemmas of State: for each shared update, what every field reads afterwards.
-/

namespace Sys2Proof.Machine

/-! ### complete (R170) -/

@[simp] theorem complete_cmd (s : State) : (complete s).cmd = s.cmd := rfl
@[simp] theorem complete_busy (s : State) : (complete s).busy = false := rfl
@[simp] theorem complete_done (s : State) : (complete s).done = true := rfl
@[simp] theorem complete_err (s : State) : (complete s).err = s.err := rfl
@[simp] theorem complete_errCode (s : State) : (complete s).errCode = s.errCode := rfl
@[simp] theorem complete_ieDone (s : State) : (complete s).ieDone = s.ieDone := rfl
@[simp] theorem complete_ieErr (s : State) : (complete s).ieErr = s.ieErr := rfl
@[simp] theorem complete_mlock (s : State) : (complete s).mlock = s.mlock := rfl
@[simp] theorem complete_errInfo (s : State) : (complete s).errInfo = s.errInfo := rfl
@[simp] theorem complete_opw (s : State) : (complete s).opw = s.opw := rfl
@[simp] theorem complete_rem (s : State) : (complete s).rem = s.rem := rfl
@[simp] theorem complete_lenA (s : State) : (complete s).lenA = s.lenA := rfl
@[simp] theorem complete_lenB (s : State) : (complete s).lenB = s.lenB := rfl
@[simp] theorem complete_plen (s : State) : (complete s).plen = s.plen := rfl
@[simp] theorem complete_pklen (s : State) : (complete s).pklen = s.pklen := rfl
@[simp] theorem complete_weight (s : State) : (complete s).weight = s.weight := rfl
@[simp] theorem complete_bna (s : State) : (complete s).bna = s.bna := rfl
@[simp] theorem complete_bnb (s : State) : (complete s).bnb = s.bnb := rfl
@[simp] theorem complete_mem (s : State) : (complete s).mem = s.mem := rfl
@[simp] theorem complete_resets (s : State) : (complete s).resets = s.resets := rfl
@[simp] theorem complete_schedule (s : State) : (complete s).schedule = s.schedule := rfl
@[simp] theorem complete_replies (s : State) : (complete s).replies = s.replies := rfl

/-! ### faultEntry (R183) -/

@[simp] theorem faultEntry_cmd (s : State) (c : ErrCode) (w : Word) :
    (faultEntry s c w).cmd = s.cmd := rfl
@[simp] theorem faultEntry_busy (s : State) (c : ErrCode) (w : Word) :
    (faultEntry s c w).busy = false := rfl
@[simp] theorem faultEntry_done (s : State) (c : ErrCode) (w : Word) :
    (faultEntry s c w).done = s.done := rfl
@[simp] theorem faultEntry_err (s : State) (c : ErrCode) (w : Word) :
    (faultEntry s c w).err = true := rfl
@[simp] theorem faultEntry_errCode (s : State) (c : ErrCode) (w : Word) :
    (faultEntry s c w).errCode = errNum c := rfl
@[simp] theorem faultEntry_ieDone (s : State) (c : ErrCode) (w : Word) :
    (faultEntry s c w).ieDone = s.ieDone := rfl
@[simp] theorem faultEntry_ieErr (s : State) (c : ErrCode) (w : Word) :
    (faultEntry s c w).ieErr = s.ieErr := rfl
@[simp] theorem faultEntry_mlock (s : State) (c : ErrCode) (w : Word) :
    (faultEntry s c w).mlock = s.mlock := rfl
@[simp] theorem faultEntry_errInfo (s : State) (c : ErrCode) (w : Word) :
    (faultEntry s c w).errInfo = w := rfl
@[simp] theorem faultEntry_opw (s : State) (c : ErrCode) (w : Word) :
    (faultEntry s c w).opw = s.opw := rfl
@[simp] theorem faultEntry_rem (s : State) (c : ErrCode) (w : Word) :
    (faultEntry s c w).rem = s.rem := rfl
@[simp] theorem faultEntry_lenA (s : State) (c : ErrCode) (w : Word) :
    (faultEntry s c w).lenA = s.lenA := rfl
@[simp] theorem faultEntry_lenB (s : State) (c : ErrCode) (w : Word) :
    (faultEntry s c w).lenB = s.lenB := rfl
@[simp] theorem faultEntry_plen (s : State) (c : ErrCode) (w : Word) :
    (faultEntry s c w).plen = s.plen := rfl
@[simp] theorem faultEntry_pklen (s : State) (c : ErrCode) (w : Word) :
    (faultEntry s c w).pklen = s.pklen := rfl
@[simp] theorem faultEntry_weight (s : State) (c : ErrCode) (w : Word) :
    (faultEntry s c w).weight = s.weight := rfl
@[simp] theorem faultEntry_bna (s : State) (c : ErrCode) (w : Word) :
    (faultEntry s c w).bna = s.bna := rfl
@[simp] theorem faultEntry_bnb (s : State) (c : ErrCode) (w : Word) :
    (faultEntry s c w).bnb = s.bnb := rfl
@[simp] theorem faultEntry_mem (s : State) (c : ErrCode) (w : Word) :
    (faultEntry s c w).mem = s.mem := rfl
@[simp] theorem faultEntry_resets (s : State) (c : ErrCode) (w : Word) :
    (faultEntry s c w).resets = s.resets := rfl
@[simp] theorem faultEntry_schedule (s : State) (c : ErrCode) (w : Word) :
    (faultEntry s c w).schedule = s.schedule := rfl
@[simp] theorem faultEntry_replies (s : State) (c : ErrCode) (w : Word) :
    (faultEntry s c w).replies = s.replies := rfl

/-! ### accept (R171) -/

@[simp] theorem accept_cmd (s : State) (v : Word) : (accept s v).cmd = v := rfl
@[simp] theorem accept_busy (s : State) (v : Word) : (accept s v).busy = true := rfl
@[simp] theorem accept_done (s : State) (v : Word) : (accept s v).done = false := rfl
@[simp] theorem accept_err (s : State) (v : Word) : (accept s v).err = s.err := rfl
@[simp] theorem accept_errCode (s : State) (v : Word) : (accept s v).errCode = s.errCode := rfl
@[simp] theorem accept_ieDone (s : State) (v : Word) : (accept s v).ieDone = s.ieDone := rfl
@[simp] theorem accept_ieErr (s : State) (v : Word) : (accept s v).ieErr = s.ieErr := rfl
@[simp] theorem accept_mlock (s : State) (v : Word) : (accept s v).mlock = s.mlock := rfl
@[simp] theorem accept_errInfo (s : State) (v : Word) : (accept s v).errInfo = s.errInfo := rfl
@[simp] theorem accept_opw (s : State) (v : Word) : (accept s v).opw = s.opw := rfl
@[simp] theorem accept_rem (s : State) (v : Word) : (accept s v).rem = s.rem := rfl
@[simp] theorem accept_lenA (s : State) (v : Word) : (accept s v).lenA = s.lenA := rfl
@[simp] theorem accept_lenB (s : State) (v : Word) : (accept s v).lenB = s.lenB := rfl
@[simp] theorem accept_plen (s : State) (v : Word) : (accept s v).plen = s.plen := rfl
@[simp] theorem accept_pklen (s : State) (v : Word) : (accept s v).pklen = s.pklen := rfl
@[simp] theorem accept_weight (s : State) (v : Word) : (accept s v).weight = s.weight := rfl
@[simp] theorem accept_bna (s : State) (v : Word) : (accept s v).bna = s.bna := rfl
@[simp] theorem accept_bnb (s : State) (v : Word) : (accept s v).bnb = s.bnb := rfl
@[simp] theorem accept_mem (s : State) (v : Word) : (accept s v).mem = s.mem := rfl
@[simp] theorem accept_resets (s : State) (v : Word) : (accept s v).resets = s.resets := rfl
@[simp] theorem accept_schedule (s : State) (v : Word) : (accept s v).schedule = s.schedule := rfl
@[simp] theorem accept_replies (s : State) (v : Word) : (accept s v).replies = s.replies := rfl

/-! ### writeBuf -/

@[simp] theorem writeBuf_cmd (s : State) (b : Buf) (n : Nat) (f : Nat → Byte) :
    (writeBuf s b n f).cmd = s.cmd := rfl
@[simp] theorem writeBuf_busy (s : State) (b : Buf) (n : Nat) (f : Nat → Byte) :
    (writeBuf s b n f).busy = s.busy := rfl
@[simp] theorem writeBuf_done (s : State) (b : Buf) (n : Nat) (f : Nat → Byte) :
    (writeBuf s b n f).done = s.done := rfl
@[simp] theorem writeBuf_err (s : State) (b : Buf) (n : Nat) (f : Nat → Byte) :
    (writeBuf s b n f).err = s.err := rfl
@[simp] theorem writeBuf_errCode (s : State) (b : Buf) (n : Nat) (f : Nat → Byte) :
    (writeBuf s b n f).errCode = s.errCode := rfl
@[simp] theorem writeBuf_ieDone (s : State) (b : Buf) (n : Nat) (f : Nat → Byte) :
    (writeBuf s b n f).ieDone = s.ieDone := rfl
@[simp] theorem writeBuf_ieErr (s : State) (b : Buf) (n : Nat) (f : Nat → Byte) :
    (writeBuf s b n f).ieErr = s.ieErr := rfl
@[simp] theorem writeBuf_mlock (s : State) (b : Buf) (n : Nat) (f : Nat → Byte) :
    (writeBuf s b n f).mlock = s.mlock := rfl
@[simp] theorem writeBuf_errInfo (s : State) (b : Buf) (n : Nat) (f : Nat → Byte) :
    (writeBuf s b n f).errInfo = s.errInfo := rfl
@[simp] theorem writeBuf_opw (s : State) (b : Buf) (n : Nat) (f : Nat → Byte) :
    (writeBuf s b n f).opw = s.opw := rfl
@[simp] theorem writeBuf_rem (s : State) (b : Buf) (n : Nat) (f : Nat → Byte) :
    (writeBuf s b n f).rem = s.rem := rfl
@[simp] theorem writeBuf_lenA (s : State) (b : Buf) (n : Nat) (f : Nat → Byte) :
    (writeBuf s b n f).lenA = s.lenA := rfl
@[simp] theorem writeBuf_lenB (s : State) (b : Buf) (n : Nat) (f : Nat → Byte) :
    (writeBuf s b n f).lenB = s.lenB := rfl
@[simp] theorem writeBuf_plen (s : State) (b : Buf) (n : Nat) (f : Nat → Byte) :
    (writeBuf s b n f).plen = s.plen := rfl
@[simp] theorem writeBuf_pklen (s : State) (b : Buf) (n : Nat) (f : Nat → Byte) :
    (writeBuf s b n f).pklen = s.pklen := rfl
@[simp] theorem writeBuf_weight (s : State) (b : Buf) (n : Nat) (f : Nat → Byte) :
    (writeBuf s b n f).weight = s.weight := rfl
@[simp] theorem writeBuf_bna (s : State) (b : Buf) (n : Nat) (f : Nat → Byte) :
    (writeBuf s b n f).bna = s.bna := rfl
@[simp] theorem writeBuf_bnb (s : State) (b : Buf) (n : Nat) (f : Nat → Byte) :
    (writeBuf s b n f).bnb = s.bnb := rfl
@[simp] theorem writeBuf_mem (s : State) (b : Buf) (n : Nat) (f : Nat → Byte) :
    (writeBuf s b n f).mem = s.mem.patch (bufBase b) n f := rfl
@[simp] theorem writeBuf_resets (s : State) (b : Buf) (n : Nat) (f : Nat → Byte) :
    (writeBuf s b n f).resets = s.resets := rfl
@[simp] theorem writeBuf_schedule (s : State) (b : Buf) (n : Nat) (f : Nat → Byte) :
    (writeBuf s b n f).schedule = s.schedule := rfl
@[simp] theorem writeBuf_replies (s : State) (b : Buf) (n : Nat) (f : Nat → Byte) :
    (writeBuf s b n f).replies = s.replies := rfl

/-! ### writeBits -/

@[simp] theorem writeBits_cmd (s : State) (b : Buf) (n : Nat) (g : Nat → Bool) :
    (writeBits s b n g).cmd = s.cmd := rfl
@[simp] theorem writeBits_busy (s : State) (b : Buf) (n : Nat) (g : Nat → Bool) :
    (writeBits s b n g).busy = s.busy := rfl
@[simp] theorem writeBits_done (s : State) (b : Buf) (n : Nat) (g : Nat → Bool) :
    (writeBits s b n g).done = s.done := rfl
@[simp] theorem writeBits_err (s : State) (b : Buf) (n : Nat) (g : Nat → Bool) :
    (writeBits s b n g).err = s.err := rfl
@[simp] theorem writeBits_errCode (s : State) (b : Buf) (n : Nat) (g : Nat → Bool) :
    (writeBits s b n g).errCode = s.errCode := rfl
@[simp] theorem writeBits_ieDone (s : State) (b : Buf) (n : Nat) (g : Nat → Bool) :
    (writeBits s b n g).ieDone = s.ieDone := rfl
@[simp] theorem writeBits_ieErr (s : State) (b : Buf) (n : Nat) (g : Nat → Bool) :
    (writeBits s b n g).ieErr = s.ieErr := rfl
@[simp] theorem writeBits_mlock (s : State) (b : Buf) (n : Nat) (g : Nat → Bool) :
    (writeBits s b n g).mlock = s.mlock := rfl
@[simp] theorem writeBits_errInfo (s : State) (b : Buf) (n : Nat) (g : Nat → Bool) :
    (writeBits s b n g).errInfo = s.errInfo := rfl
@[simp] theorem writeBits_opw (s : State) (b : Buf) (n : Nat) (g : Nat → Bool) :
    (writeBits s b n g).opw = s.opw := rfl
@[simp] theorem writeBits_rem (s : State) (b : Buf) (n : Nat) (g : Nat → Bool) :
    (writeBits s b n g).rem = s.rem := rfl
@[simp] theorem writeBits_lenA (s : State) (b : Buf) (n : Nat) (g : Nat → Bool) :
    (writeBits s b n g).lenA = s.lenA := rfl
@[simp] theorem writeBits_lenB (s : State) (b : Buf) (n : Nat) (g : Nat → Bool) :
    (writeBits s b n g).lenB = s.lenB := rfl
@[simp] theorem writeBits_plen (s : State) (b : Buf) (n : Nat) (g : Nat → Bool) :
    (writeBits s b n g).plen = s.plen := rfl
@[simp] theorem writeBits_pklen (s : State) (b : Buf) (n : Nat) (g : Nat → Bool) :
    (writeBits s b n g).pklen = s.pklen := rfl
@[simp] theorem writeBits_weight (s : State) (b : Buf) (n : Nat) (g : Nat → Bool) :
    (writeBits s b n g).weight = s.weight := rfl
@[simp] theorem writeBits_bna (s : State) (b : Buf) (n : Nat) (g : Nat → Bool) :
    (writeBits s b n g).bna = s.bna := rfl
@[simp] theorem writeBits_bnb (s : State) (b : Buf) (n : Nat) (g : Nat → Bool) :
    (writeBits s b n g).bnb = s.bnb := rfl
@[simp] theorem writeBits_resets (s : State) (b : Buf) (n : Nat) (g : Nat → Bool) :
    (writeBits s b n g).resets = s.resets := rfl
@[simp] theorem writeBits_schedule (s : State) (b : Buf) (n : Nat) (g : Nat → Bool) :
    (writeBits s b n g).schedule = s.schedule := rfl
@[simp] theorem writeBits_replies (s : State) (b : Buf) (n : Nat) (g : Nat → Bool) :
    (writeBits s b n g).replies = s.replies := rfl

/-! ### writeSig -/

@[simp] theorem writeSig_cmd (s : State) (n : Nat) (f : Nat → Half) :
    (writeSig s n f).cmd = s.cmd := rfl
@[simp] theorem writeSig_busy (s : State) (n : Nat) (f : Nat → Half) :
    (writeSig s n f).busy = s.busy := rfl
@[simp] theorem writeSig_done (s : State) (n : Nat) (f : Nat → Half) :
    (writeSig s n f).done = s.done := rfl
@[simp] theorem writeSig_err (s : State) (n : Nat) (f : Nat → Half) :
    (writeSig s n f).err = s.err := rfl
@[simp] theorem writeSig_errCode (s : State) (n : Nat) (f : Nat → Half) :
    (writeSig s n f).errCode = s.errCode := rfl
@[simp] theorem writeSig_ieDone (s : State) (n : Nat) (f : Nat → Half) :
    (writeSig s n f).ieDone = s.ieDone := rfl
@[simp] theorem writeSig_ieErr (s : State) (n : Nat) (f : Nat → Half) :
    (writeSig s n f).ieErr = s.ieErr := rfl
@[simp] theorem writeSig_mlock (s : State) (n : Nat) (f : Nat → Half) :
    (writeSig s n f).mlock = s.mlock := rfl
@[simp] theorem writeSig_errInfo (s : State) (n : Nat) (f : Nat → Half) :
    (writeSig s n f).errInfo = s.errInfo := rfl
@[simp] theorem writeSig_opw (s : State) (n : Nat) (f : Nat → Half) :
    (writeSig s n f).opw = s.opw := rfl
@[simp] theorem writeSig_rem (s : State) (n : Nat) (f : Nat → Half) :
    (writeSig s n f).rem = s.rem := rfl
@[simp] theorem writeSig_lenA (s : State) (n : Nat) (f : Nat → Half) :
    (writeSig s n f).lenA = s.lenA := rfl
@[simp] theorem writeSig_lenB (s : State) (n : Nat) (f : Nat → Half) :
    (writeSig s n f).lenB = s.lenB := rfl
@[simp] theorem writeSig_plen (s : State) (n : Nat) (f : Nat → Half) :
    (writeSig s n f).plen = s.plen := rfl
@[simp] theorem writeSig_pklen (s : State) (n : Nat) (f : Nat → Half) :
    (writeSig s n f).pklen = s.pklen := rfl
@[simp] theorem writeSig_weight (s : State) (n : Nat) (f : Nat → Half) :
    (writeSig s n f).weight = s.weight := rfl
@[simp] theorem writeSig_bna (s : State) (n : Nat) (f : Nat → Half) :
    (writeSig s n f).bna = s.bna := rfl
@[simp] theorem writeSig_bnb (s : State) (n : Nat) (f : Nat → Half) :
    (writeSig s n f).bnb = s.bnb := rfl
@[simp] theorem writeSig_resets (s : State) (n : Nat) (f : Nat → Half) :
    (writeSig s n f).resets = s.resets := rfl
@[simp] theorem writeSig_schedule (s : State) (n : Nat) (f : Nat → Half) :
    (writeSig s n f).schedule = s.schedule := rfl
@[simp] theorem writeSig_replies (s : State) (n : Nat) (f : Nat → Half) :
    (writeSig s n f).replies = s.replies := rfl

/-! ### writeBn (R141) -/

@[simp] theorem writeBn_cmd (s : State) (d : BnSel) (xs : List Word) :
    (writeBn s d xs).cmd = s.cmd := by cases d <;> rfl
@[simp] theorem writeBn_busy (s : State) (d : BnSel) (xs : List Word) :
    (writeBn s d xs).busy = s.busy := by cases d <;> rfl
@[simp] theorem writeBn_done (s : State) (d : BnSel) (xs : List Word) :
    (writeBn s d xs).done = s.done := by cases d <;> rfl
@[simp] theorem writeBn_err (s : State) (d : BnSel) (xs : List Word) :
    (writeBn s d xs).err = s.err := by cases d <;> rfl
@[simp] theorem writeBn_errCode (s : State) (d : BnSel) (xs : List Word) :
    (writeBn s d xs).errCode = s.errCode := by cases d <;> rfl
@[simp] theorem writeBn_ieDone (s : State) (d : BnSel) (xs : List Word) :
    (writeBn s d xs).ieDone = s.ieDone := by cases d <;> rfl
@[simp] theorem writeBn_ieErr (s : State) (d : BnSel) (xs : List Word) :
    (writeBn s d xs).ieErr = s.ieErr := by cases d <;> rfl
@[simp] theorem writeBn_mlock (s : State) (d : BnSel) (xs : List Word) :
    (writeBn s d xs).mlock = s.mlock := by cases d <;> rfl
@[simp] theorem writeBn_errInfo (s : State) (d : BnSel) (xs : List Word) :
    (writeBn s d xs).errInfo = s.errInfo := by cases d <;> rfl
@[simp] theorem writeBn_opw (s : State) (d : BnSel) (xs : List Word) :
    (writeBn s d xs).opw = s.opw := by cases d <;> rfl
@[simp] theorem writeBn_rem (s : State) (d : BnSel) (xs : List Word) :
    (writeBn s d xs).rem = s.rem := by cases d <;> rfl
@[simp] theorem writeBn_plen (s : State) (d : BnSel) (xs : List Word) :
    (writeBn s d xs).plen = s.plen := by cases d <;> rfl
@[simp] theorem writeBn_pklen (s : State) (d : BnSel) (xs : List Word) :
    (writeBn s d xs).pklen = s.pklen := by cases d <;> rfl
@[simp] theorem writeBn_weight (s : State) (d : BnSel) (xs : List Word) :
    (writeBn s d xs).weight = s.weight := by cases d <;> rfl
@[simp] theorem writeBn_mem (s : State) (d : BnSel) (xs : List Word) :
    (writeBn s d xs).mem = s.mem := by cases d <;> rfl
@[simp] theorem writeBn_resets (s : State) (d : BnSel) (xs : List Word) :
    (writeBn s d xs).resets = s.resets := by cases d <;> rfl
@[simp] theorem writeBn_schedule (s : State) (d : BnSel) (xs : List Word) :
    (writeBn s d xs).schedule = s.schedule := by cases d <;> rfl
@[simp] theorem writeBn_replies (s : State) (d : BnSel) (xs : List Word) :
    (writeBn s d xs).replies = s.replies := by cases d <;> rfl

/-! ### setBnWord (R69) -/

@[simp] theorem setBnWord_cmd (s : State) (d : BnSel) (i : Nat) (v : Word) :
    (setBnWord s d i v).cmd = s.cmd := by cases d <;> rfl
@[simp] theorem setBnWord_busy (s : State) (d : BnSel) (i : Nat) (v : Word) :
    (setBnWord s d i v).busy = s.busy := by cases d <;> rfl
@[simp] theorem setBnWord_done (s : State) (d : BnSel) (i : Nat) (v : Word) :
    (setBnWord s d i v).done = s.done := by cases d <;> rfl
@[simp] theorem setBnWord_err (s : State) (d : BnSel) (i : Nat) (v : Word) :
    (setBnWord s d i v).err = s.err := by cases d <;> rfl
@[simp] theorem setBnWord_errCode (s : State) (d : BnSel) (i : Nat) (v : Word) :
    (setBnWord s d i v).errCode = s.errCode := by cases d <;> rfl
@[simp] theorem setBnWord_ieDone (s : State) (d : BnSel) (i : Nat) (v : Word) :
    (setBnWord s d i v).ieDone = s.ieDone := by cases d <;> rfl
@[simp] theorem setBnWord_ieErr (s : State) (d : BnSel) (i : Nat) (v : Word) :
    (setBnWord s d i v).ieErr = s.ieErr := by cases d <;> rfl
@[simp] theorem setBnWord_mlock (s : State) (d : BnSel) (i : Nat) (v : Word) :
    (setBnWord s d i v).mlock = s.mlock := by cases d <;> rfl
@[simp] theorem setBnWord_errInfo (s : State) (d : BnSel) (i : Nat) (v : Word) :
    (setBnWord s d i v).errInfo = s.errInfo := by cases d <;> rfl
@[simp] theorem setBnWord_opw (s : State) (d : BnSel) (i : Nat) (v : Word) :
    (setBnWord s d i v).opw = s.opw := by cases d <;> rfl
@[simp] theorem setBnWord_rem (s : State) (d : BnSel) (i : Nat) (v : Word) :
    (setBnWord s d i v).rem = s.rem := by cases d <;> rfl
@[simp] theorem setBnWord_lenA (s : State) (d : BnSel) (i : Nat) (v : Word) :
    (setBnWord s d i v).lenA = s.lenA := by cases d <;> rfl
@[simp] theorem setBnWord_lenB (s : State) (d : BnSel) (i : Nat) (v : Word) :
    (setBnWord s d i v).lenB = s.lenB := by cases d <;> rfl
@[simp] theorem setBnWord_plen (s : State) (d : BnSel) (i : Nat) (v : Word) :
    (setBnWord s d i v).plen = s.plen := by cases d <;> rfl
@[simp] theorem setBnWord_pklen (s : State) (d : BnSel) (i : Nat) (v : Word) :
    (setBnWord s d i v).pklen = s.pklen := by cases d <;> rfl
@[simp] theorem setBnWord_weight (s : State) (d : BnSel) (i : Nat) (v : Word) :
    (setBnWord s d i v).weight = s.weight := by cases d <;> rfl
@[simp] theorem setBnWord_mem (s : State) (d : BnSel) (i : Nat) (v : Word) :
    (setBnWord s d i v).mem = s.mem := by cases d <;> rfl
@[simp] theorem setBnWord_resets (s : State) (d : BnSel) (i : Nat) (v : Word) :
    (setBnWord s d i v).resets = s.resets := by cases d <;> rfl
@[simp] theorem setBnWord_schedule (s : State) (d : BnSel) (i : Nat) (v : Word) :
    (setBnWord s d i v).schedule = s.schedule := by cases d <;> rfl
@[simp] theorem setBnWord_replies (s : State) (d : BnSel) (i : Nat) (v : Word) :
    (setBnWord s d i v).replies = s.replies := by cases d <;> rfl

/-! ### setRem (R32) -/

@[simp] theorem setRem_cmd (s : State) (r : Nat) : (setRem s r).cmd = s.cmd := rfl
@[simp] theorem setRem_busy (s : State) (r : Nat) : (setRem s r).busy = s.busy := rfl
@[simp] theorem setRem_done (s : State) (r : Nat) : (setRem s r).done = s.done := rfl
@[simp] theorem setRem_err (s : State) (r : Nat) : (setRem s r).err = s.err := rfl
@[simp] theorem setRem_errCode (s : State) (r : Nat) : (setRem s r).errCode = s.errCode := rfl
@[simp] theorem setRem_ieDone (s : State) (r : Nat) : (setRem s r).ieDone = s.ieDone := rfl
@[simp] theorem setRem_ieErr (s : State) (r : Nat) : (setRem s r).ieErr = s.ieErr := rfl
@[simp] theorem setRem_mlock (s : State) (r : Nat) : (setRem s r).mlock = s.mlock := rfl
@[simp] theorem setRem_errInfo (s : State) (r : Nat) : (setRem s r).errInfo = s.errInfo := rfl
@[simp] theorem setRem_opw (s : State) (r : Nat) : (setRem s r).opw = s.opw := rfl
@[simp] theorem setRem_rem (s : State) (r : Nat) : (setRem s r).rem = BitVec.ofNat 2 r := rfl
@[simp] theorem setRem_lenA (s : State) (r : Nat) : (setRem s r).lenA = s.lenA := rfl
@[simp] theorem setRem_lenB (s : State) (r : Nat) : (setRem s r).lenB = s.lenB := rfl
@[simp] theorem setRem_plen (s : State) (r : Nat) : (setRem s r).plen = s.plen := rfl
@[simp] theorem setRem_pklen (s : State) (r : Nat) : (setRem s r).pklen = s.pklen := rfl
@[simp] theorem setRem_weight (s : State) (r : Nat) : (setRem s r).weight = s.weight := rfl
@[simp] theorem setRem_bna (s : State) (r : Nat) : (setRem s r).bna = s.bna := rfl
@[simp] theorem setRem_bnb (s : State) (r : Nat) : (setRem s r).bnb = s.bnb := rfl
@[simp] theorem setRem_mem (s : State) (r : Nat) : (setRem s r).mem = s.mem := rfl
@[simp] theorem setRem_resets (s : State) (r : Nat) : (setRem s r).resets = s.resets := rfl
@[simp] theorem setRem_schedule (s : State) (r : Nat) : (setRem s r).schedule = s.schedule := rfl
@[simp] theorem setRem_replies (s : State) (r : Nat) : (setRem s r).replies = s.replies := rfl

/-! ### setPlen (R34) -/

@[simp] theorem setPlen_cmd (s : State) (n : Nat) : (setPlen s n).cmd = s.cmd := rfl
@[simp] theorem setPlen_busy (s : State) (n : Nat) : (setPlen s n).busy = s.busy := rfl
@[simp] theorem setPlen_done (s : State) (n : Nat) : (setPlen s n).done = s.done := rfl
@[simp] theorem setPlen_err (s : State) (n : Nat) : (setPlen s n).err = s.err := rfl
@[simp] theorem setPlen_errCode (s : State) (n : Nat) : (setPlen s n).errCode = s.errCode := rfl
@[simp] theorem setPlen_ieDone (s : State) (n : Nat) : (setPlen s n).ieDone = s.ieDone := rfl
@[simp] theorem setPlen_ieErr (s : State) (n : Nat) : (setPlen s n).ieErr = s.ieErr := rfl
@[simp] theorem setPlen_mlock (s : State) (n : Nat) : (setPlen s n).mlock = s.mlock := rfl
@[simp] theorem setPlen_errInfo (s : State) (n : Nat) : (setPlen s n).errInfo = s.errInfo := rfl
@[simp] theorem setPlen_opw (s : State) (n : Nat) : (setPlen s n).opw = s.opw := rfl
@[simp] theorem setPlen_rem (s : State) (n : Nat) : (setPlen s n).rem = s.rem := rfl
@[simp] theorem setPlen_lenA (s : State) (n : Nat) : (setPlen s n).lenA = s.lenA := rfl
@[simp] theorem setPlen_lenB (s : State) (n : Nat) : (setPlen s n).lenB = s.lenB := rfl
@[simp] theorem setPlen_plen (s : State) (n : Nat) : (setPlen s n).plen = BitVec.ofNat 12 n := rfl
@[simp] theorem setPlen_pklen (s : State) (n : Nat) : (setPlen s n).pklen = s.pklen := rfl
@[simp] theorem setPlen_weight (s : State) (n : Nat) : (setPlen s n).weight = s.weight := rfl
@[simp] theorem setPlen_bna (s : State) (n : Nat) : (setPlen s n).bna = s.bna := rfl
@[simp] theorem setPlen_bnb (s : State) (n : Nat) : (setPlen s n).bnb = s.bnb := rfl
@[simp] theorem setPlen_mem (s : State) (n : Nat) : (setPlen s n).mem = s.mem := rfl
@[simp] theorem setPlen_resets (s : State) (n : Nat) : (setPlen s n).resets = s.resets := rfl
@[simp] theorem setPlen_schedule (s : State) (n : Nat) : (setPlen s n).schedule = s.schedule := rfl
@[simp] theorem setPlen_replies (s : State) (n : Nat) : (setPlen s n).replies = s.replies := rfl

/-! ### setPklen (R35) -/

@[simp] theorem setPklen_cmd (s : State) (n : Nat) : (setPklen s n).cmd = s.cmd := rfl
@[simp] theorem setPklen_busy (s : State) (n : Nat) : (setPklen s n).busy = s.busy := rfl
@[simp] theorem setPklen_done (s : State) (n : Nat) : (setPklen s n).done = s.done := rfl
@[simp] theorem setPklen_err (s : State) (n : Nat) : (setPklen s n).err = s.err := rfl
@[simp] theorem setPklen_errCode (s : State) (n : Nat) : (setPklen s n).errCode = s.errCode := rfl
@[simp] theorem setPklen_ieDone (s : State) (n : Nat) : (setPklen s n).ieDone = s.ieDone := rfl
@[simp] theorem setPklen_ieErr (s : State) (n : Nat) : (setPklen s n).ieErr = s.ieErr := rfl
@[simp] theorem setPklen_mlock (s : State) (n : Nat) : (setPklen s n).mlock = s.mlock := rfl
@[simp] theorem setPklen_errInfo (s : State) (n : Nat) : (setPklen s n).errInfo = s.errInfo := rfl
@[simp] theorem setPklen_opw (s : State) (n : Nat) : (setPklen s n).opw = s.opw := rfl
@[simp] theorem setPklen_rem (s : State) (n : Nat) : (setPklen s n).rem = s.rem := rfl
@[simp] theorem setPklen_lenA (s : State) (n : Nat) : (setPklen s n).lenA = s.lenA := rfl
@[simp] theorem setPklen_lenB (s : State) (n : Nat) : (setPklen s n).lenB = s.lenB := rfl
@[simp] theorem setPklen_plen (s : State) (n : Nat) : (setPklen s n).plen = s.plen := rfl
@[simp] theorem setPklen_pklen (s : State) (n : Nat) :
    (setPklen s n).pklen = BitVec.ofNat 13 n := rfl
@[simp] theorem setPklen_weight (s : State) (n : Nat) : (setPklen s n).weight = s.weight := rfl
@[simp] theorem setPklen_bna (s : State) (n : Nat) : (setPklen s n).bna = s.bna := rfl
@[simp] theorem setPklen_bnb (s : State) (n : Nat) : (setPklen s n).bnb = s.bnb := rfl
@[simp] theorem setPklen_mem (s : State) (n : Nat) : (setPklen s n).mem = s.mem := rfl
@[simp] theorem setPklen_resets (s : State) (n : Nat) : (setPklen s n).resets = s.resets := rfl
@[simp] theorem setPklen_schedule (s : State) (n : Nat) :
    (setPklen s n).schedule = s.schedule := rfl
@[simp] theorem setPklen_replies (s : State) (n : Nat) : (setPklen s n).replies = s.replies := rfl

/-! ### setWeight (R36) -/

@[simp] theorem setWeight_cmd (s : State) (n : Nat) : (setWeight s n).cmd = s.cmd := rfl
@[simp] theorem setWeight_busy (s : State) (n : Nat) : (setWeight s n).busy = s.busy := rfl
@[simp] theorem setWeight_done (s : State) (n : Nat) : (setWeight s n).done = s.done := rfl
@[simp] theorem setWeight_err (s : State) (n : Nat) : (setWeight s n).err = s.err := rfl
@[simp] theorem setWeight_errCode (s : State) (n : Nat) : (setWeight s n).errCode = s.errCode := rfl
@[simp] theorem setWeight_ieDone (s : State) (n : Nat) : (setWeight s n).ieDone = s.ieDone := rfl
@[simp] theorem setWeight_ieErr (s : State) (n : Nat) : (setWeight s n).ieErr = s.ieErr := rfl
@[simp] theorem setWeight_mlock (s : State) (n : Nat) : (setWeight s n).mlock = s.mlock := rfl
@[simp] theorem setWeight_errInfo (s : State) (n : Nat) : (setWeight s n).errInfo = s.errInfo := rfl
@[simp] theorem setWeight_opw (s : State) (n : Nat) : (setWeight s n).opw = s.opw := rfl
@[simp] theorem setWeight_rem (s : State) (n : Nat) : (setWeight s n).rem = s.rem := rfl
@[simp] theorem setWeight_lenA (s : State) (n : Nat) : (setWeight s n).lenA = s.lenA := rfl
@[simp] theorem setWeight_lenB (s : State) (n : Nat) : (setWeight s n).lenB = s.lenB := rfl
@[simp] theorem setWeight_plen (s : State) (n : Nat) : (setWeight s n).plen = s.plen := rfl
@[simp] theorem setWeight_pklen (s : State) (n : Nat) : (setWeight s n).pklen = s.pklen := rfl
@[simp] theorem setWeight_weight (s : State) (n : Nat) :
    (setWeight s n).weight = BitVec.ofNat 12 n := rfl
@[simp] theorem setWeight_bna (s : State) (n : Nat) : (setWeight s n).bna = s.bna := rfl
@[simp] theorem setWeight_bnb (s : State) (n : Nat) : (setWeight s n).bnb = s.bnb := rfl
@[simp] theorem setWeight_mem (s : State) (n : Nat) : (setWeight s n).mem = s.mem := rfl
@[simp] theorem setWeight_resets (s : State) (n : Nat) : (setWeight s n).resets = s.resets := rfl
@[simp] theorem setWeight_schedule (s : State) (n : Nat) :
    (setWeight s n).schedule = s.schedule := rfl
@[simp] theorem setWeight_replies (s : State) (n : Nat) : (setWeight s n).replies = s.replies := rfl

/-! ### setSchedule -/

@[simp] theorem setSchedule_cmd (s : State) (es : List Event) :
    (setSchedule s es).cmd = s.cmd := rfl
@[simp] theorem setSchedule_busy (s : State) (es : List Event) :
    (setSchedule s es).busy = s.busy := rfl
@[simp] theorem setSchedule_done (s : State) (es : List Event) :
    (setSchedule s es).done = s.done := rfl
@[simp] theorem setSchedule_err (s : State) (es : List Event) :
    (setSchedule s es).err = s.err := rfl
@[simp] theorem setSchedule_errCode (s : State) (es : List Event) :
    (setSchedule s es).errCode = s.errCode := rfl
@[simp] theorem setSchedule_ieDone (s : State) (es : List Event) :
    (setSchedule s es).ieDone = s.ieDone := rfl
@[simp] theorem setSchedule_ieErr (s : State) (es : List Event) :
    (setSchedule s es).ieErr = s.ieErr := rfl
@[simp] theorem setSchedule_mlock (s : State) (es : List Event) :
    (setSchedule s es).mlock = s.mlock := rfl
@[simp] theorem setSchedule_errInfo (s : State) (es : List Event) :
    (setSchedule s es).errInfo = s.errInfo := rfl
@[simp] theorem setSchedule_opw (s : State) (es : List Event) :
    (setSchedule s es).opw = s.opw := rfl
@[simp] theorem setSchedule_rem (s : State) (es : List Event) :
    (setSchedule s es).rem = s.rem := rfl
@[simp] theorem setSchedule_lenA (s : State) (es : List Event) :
    (setSchedule s es).lenA = s.lenA := rfl
@[simp] theorem setSchedule_lenB (s : State) (es : List Event) :
    (setSchedule s es).lenB = s.lenB := rfl
@[simp] theorem setSchedule_plen (s : State) (es : List Event) :
    (setSchedule s es).plen = s.plen := rfl
@[simp] theorem setSchedule_pklen (s : State) (es : List Event) :
    (setSchedule s es).pklen = s.pklen := rfl
@[simp] theorem setSchedule_weight (s : State) (es : List Event) :
    (setSchedule s es).weight = s.weight := rfl
@[simp] theorem setSchedule_bna (s : State) (es : List Event) :
    (setSchedule s es).bna = s.bna := rfl
@[simp] theorem setSchedule_bnb (s : State) (es : List Event) :
    (setSchedule s es).bnb = s.bnb := rfl
@[simp] theorem setSchedule_mem (s : State) (es : List Event) :
    (setSchedule s es).mem = s.mem := rfl
@[simp] theorem setSchedule_resets (s : State) (es : List Event) :
    (setSchedule s es).resets = s.resets := rfl
@[simp] theorem setSchedule_schedule (s : State) (es : List Event) :
    (setSchedule s es).schedule = es := rfl
@[simp] theorem setSchedule_replies (s : State) (es : List Event) :
    (setSchedule s es).replies = s.replies := rfl

/-! ### storeWord (R67) -/

@[simp] theorem storeWord_cmd (s : State) (b : Buf) (q : Nat) (v : Word) :
    (storeWord s b q v).cmd = s.cmd := rfl
@[simp] theorem storeWord_busy (s : State) (b : Buf) (q : Nat) (v : Word) :
    (storeWord s b q v).busy = s.busy := rfl
@[simp] theorem storeWord_done (s : State) (b : Buf) (q : Nat) (v : Word) :
    (storeWord s b q v).done = s.done := rfl
@[simp] theorem storeWord_err (s : State) (b : Buf) (q : Nat) (v : Word) :
    (storeWord s b q v).err = s.err := rfl
@[simp] theorem storeWord_errCode (s : State) (b : Buf) (q : Nat) (v : Word) :
    (storeWord s b q v).errCode = s.errCode := rfl
@[simp] theorem storeWord_ieDone (s : State) (b : Buf) (q : Nat) (v : Word) :
    (storeWord s b q v).ieDone = s.ieDone := rfl
@[simp] theorem storeWord_ieErr (s : State) (b : Buf) (q : Nat) (v : Word) :
    (storeWord s b q v).ieErr = s.ieErr := rfl
@[simp] theorem storeWord_mlock (s : State) (b : Buf) (q : Nat) (v : Word) :
    (storeWord s b q v).mlock = s.mlock := rfl
@[simp] theorem storeWord_errInfo (s : State) (b : Buf) (q : Nat) (v : Word) :
    (storeWord s b q v).errInfo = s.errInfo := rfl
@[simp] theorem storeWord_opw (s : State) (b : Buf) (q : Nat) (v : Word) :
    (storeWord s b q v).opw = s.opw := rfl
@[simp] theorem storeWord_rem (s : State) (b : Buf) (q : Nat) (v : Word) :
    (storeWord s b q v).rem = s.rem := rfl
@[simp] theorem storeWord_lenA (s : State) (b : Buf) (q : Nat) (v : Word) :
    (storeWord s b q v).lenA = s.lenA := rfl
@[simp] theorem storeWord_lenB (s : State) (b : Buf) (q : Nat) (v : Word) :
    (storeWord s b q v).lenB = s.lenB := rfl
@[simp] theorem storeWord_plen (s : State) (b : Buf) (q : Nat) (v : Word) :
    (storeWord s b q v).plen = s.plen := rfl
@[simp] theorem storeWord_pklen (s : State) (b : Buf) (q : Nat) (v : Word) :
    (storeWord s b q v).pklen = s.pklen := rfl
@[simp] theorem storeWord_weight (s : State) (b : Buf) (q : Nat) (v : Word) :
    (storeWord s b q v).weight = s.weight := rfl
@[simp] theorem storeWord_bna (s : State) (b : Buf) (q : Nat) (v : Word) :
    (storeWord s b q v).bna = s.bna := rfl
@[simp] theorem storeWord_bnb (s : State) (b : Buf) (q : Nat) (v : Word) :
    (storeWord s b q v).bnb = s.bnb := rfl
@[simp] theorem storeWord_resets (s : State) (b : Buf) (q : Nat) (v : Word) :
    (storeWord s b q v).resets = s.resets := rfl
@[simp] theorem storeWord_schedule (s : State) (b : Buf) (q : Nat) (v : Word) :
    (storeWord s b q v).schedule = s.schedule := rfl
@[simp] theorem storeWord_replies (s : State) (b : Buf) (q : Nat) (v : Word) :
    (storeWord s b q v).replies = s.replies := rfl

/-! ### writeCtrl (R29) -/

@[simp] theorem writeCtrl_cmd (s : State) (v : Word) : (writeCtrl s v).cmd = s.cmd := rfl
@[simp] theorem writeCtrl_busy (s : State) (v : Word) : (writeCtrl s v).busy = s.busy := rfl
@[simp] theorem writeCtrl_done (s : State) (v : Word) : (writeCtrl s v).done = s.done := rfl
@[simp] theorem writeCtrl_err (s : State) (v : Word) : (writeCtrl s v).err = s.err := rfl
@[simp] theorem writeCtrl_errCode (s : State) (v : Word) :
    (writeCtrl s v).errCode = s.errCode := rfl
@[simp] theorem writeCtrl_ieDone (s : State) (v : Word) :
    (writeCtrl s v).ieDone = v.getLsbD 0 := rfl
@[simp] theorem writeCtrl_ieErr (s : State) (v : Word) : (writeCtrl s v).ieErr = v.getLsbD 1 := rfl
@[simp] theorem writeCtrl_mlock (s : State) (v : Word) :
    (writeCtrl s v).mlock = (s.mlock || v.getLsbD 8) := rfl
@[simp] theorem writeCtrl_errInfo (s : State) (v : Word) :
    (writeCtrl s v).errInfo = s.errInfo := rfl
@[simp] theorem writeCtrl_opw (s : State) (v : Word) : (writeCtrl s v).opw = s.opw := rfl
@[simp] theorem writeCtrl_rem (s : State) (v : Word) : (writeCtrl s v).rem = s.rem := rfl
@[simp] theorem writeCtrl_lenA (s : State) (v : Word) : (writeCtrl s v).lenA = s.lenA := rfl
@[simp] theorem writeCtrl_lenB (s : State) (v : Word) : (writeCtrl s v).lenB = s.lenB := rfl
@[simp] theorem writeCtrl_plen (s : State) (v : Word) : (writeCtrl s v).plen = s.plen := rfl
@[simp] theorem writeCtrl_pklen (s : State) (v : Word) : (writeCtrl s v).pklen = s.pklen := rfl
@[simp] theorem writeCtrl_weight (s : State) (v : Word) : (writeCtrl s v).weight = s.weight := rfl
@[simp] theorem writeCtrl_bna (s : State) (v : Word) : (writeCtrl s v).bna = s.bna := rfl
@[simp] theorem writeCtrl_bnb (s : State) (v : Word) : (writeCtrl s v).bnb = s.bnb := rfl
@[simp] theorem writeCtrl_mem (s : State) (v : Word) : (writeCtrl s v).mem = s.mem := rfl
@[simp] theorem writeCtrl_resets (s : State) (v : Word) : (writeCtrl s v).resets = s.resets := rfl
@[simp] theorem writeCtrl_schedule (s : State) (v : Word) :
    (writeCtrl s v).schedule = s.schedule := rfl
@[simp] theorem writeCtrl_replies (s : State) (v : Word) :
    (writeCtrl s v).replies = s.replies := rfl

/-! ### answer (R60) -/

@[simp] theorem answer_cmd (s : State) (r : Reply) : (answer s r).cmd = s.cmd := rfl
@[simp] theorem answer_busy (s : State) (r : Reply) : (answer s r).busy = s.busy := rfl
@[simp] theorem answer_done (s : State) (r : Reply) : (answer s r).done = s.done := rfl
@[simp] theorem answer_err (s : State) (r : Reply) : (answer s r).err = s.err := rfl
@[simp] theorem answer_errCode (s : State) (r : Reply) : (answer s r).errCode = s.errCode := rfl
@[simp] theorem answer_ieDone (s : State) (r : Reply) : (answer s r).ieDone = s.ieDone := rfl
@[simp] theorem answer_ieErr (s : State) (r : Reply) : (answer s r).ieErr = s.ieErr := rfl
@[simp] theorem answer_mlock (s : State) (r : Reply) : (answer s r).mlock = s.mlock := rfl
@[simp] theorem answer_errInfo (s : State) (r : Reply) : (answer s r).errInfo = s.errInfo := rfl
@[simp] theorem answer_opw (s : State) (r : Reply) : (answer s r).opw = s.opw := rfl
@[simp] theorem answer_rem (s : State) (r : Reply) : (answer s r).rem = s.rem := rfl
@[simp] theorem answer_lenA (s : State) (r : Reply) : (answer s r).lenA = s.lenA := rfl
@[simp] theorem answer_lenB (s : State) (r : Reply) : (answer s r).lenB = s.lenB := rfl
@[simp] theorem answer_plen (s : State) (r : Reply) : (answer s r).plen = s.plen := rfl
@[simp] theorem answer_pklen (s : State) (r : Reply) : (answer s r).pklen = s.pklen := rfl
@[simp] theorem answer_weight (s : State) (r : Reply) : (answer s r).weight = s.weight := rfl
@[simp] theorem answer_bna (s : State) (r : Reply) : (answer s r).bna = s.bna := rfl
@[simp] theorem answer_bnb (s : State) (r : Reply) : (answer s r).bnb = s.bnb := rfl
@[simp] theorem answer_mem (s : State) (r : Reply) : (answer s r).mem = s.mem := rfl
@[simp] theorem answer_resets (s : State) (r : Reply) : (answer s r).resets = s.resets := rfl
@[simp] theorem answer_schedule (s : State) (r : Reply) : (answer s r).schedule = s.schedule := rfl
@[simp] theorem answer_replies (s : State) (r : Reply) :
    (answer s r).replies = r :: s.replies := rfl

/-! ### acknowledge (R186) -/

@[simp] theorem acknowledge_cmd (s : State) :
    (acknowledge s).cmd = s.cmd := by unfold acknowledge; split <;> rfl
@[simp] theorem acknowledge_busy (s : State) :
    (acknowledge s).busy = s.busy := by unfold acknowledge; split <;> rfl
@[simp] theorem acknowledge_done (s : State) :
    (acknowledge s).done = s.done := by unfold acknowledge; split <;> rfl
@[simp] theorem acknowledge_ieDone (s : State) :
    (acknowledge s).ieDone = s.ieDone := by unfold acknowledge; split <;> rfl
@[simp] theorem acknowledge_ieErr (s : State) :
    (acknowledge s).ieErr = s.ieErr := by unfold acknowledge; split <;> rfl
@[simp] theorem acknowledge_mlock (s : State) :
    (acknowledge s).mlock = s.mlock := by unfold acknowledge; split <;> rfl
@[simp] theorem acknowledge_opw (s : State) :
    (acknowledge s).opw = s.opw := by unfold acknowledge; split <;> rfl
@[simp] theorem acknowledge_rem (s : State) :
    (acknowledge s).rem = s.rem := by unfold acknowledge; split <;> rfl
@[simp] theorem acknowledge_lenA (s : State) :
    (acknowledge s).lenA = s.lenA := by unfold acknowledge; split <;> rfl
@[simp] theorem acknowledge_lenB (s : State) :
    (acknowledge s).lenB = s.lenB := by unfold acknowledge; split <;> rfl
@[simp] theorem acknowledge_plen (s : State) :
    (acknowledge s).plen = s.plen := by unfold acknowledge; split <;> rfl
@[simp] theorem acknowledge_pklen (s : State) :
    (acknowledge s).pklen = s.pklen := by unfold acknowledge; split <;> rfl
@[simp] theorem acknowledge_weight (s : State) :
    (acknowledge s).weight = s.weight := by unfold acknowledge; split <;> rfl
@[simp] theorem acknowledge_bna (s : State) :
    (acknowledge s).bna = s.bna := by unfold acknowledge; split <;> rfl
@[simp] theorem acknowledge_bnb (s : State) :
    (acknowledge s).bnb = s.bnb := by unfold acknowledge; split <;> rfl
@[simp] theorem acknowledge_mem (s : State) :
    (acknowledge s).mem = s.mem := by unfold acknowledge; split <;> rfl
@[simp] theorem acknowledge_resets (s : State) :
    (acknowledge s).resets = s.resets := by unfold acknowledge; split <;> rfl
@[simp] theorem acknowledge_schedule (s : State) :
    (acknowledge s).schedule = s.schedule := by unfold acknowledge; split <;> rfl
@[simp] theorem acknowledge_replies (s : State) :
    (acknowledge s).replies = s.replies := by unfold acknowledge; split <;> rfl

/-! ### writeStatus (R28) -/

@[simp] theorem writeStatus_cmd (s : State) (v : Word) :
    (writeStatus s v).cmd = s.cmd := by
  unfold writeStatus; split <;> split <;> simp
@[simp] theorem writeStatus_busy (s : State) (v : Word) :
    (writeStatus s v).busy = s.busy := by
  unfold writeStatus; split <;> split <;> simp
@[simp] theorem writeStatus_ieDone (s : State) (v : Word) :
    (writeStatus s v).ieDone = s.ieDone := by
  unfold writeStatus; split <;> split <;> simp
@[simp] theorem writeStatus_ieErr (s : State) (v : Word) :
    (writeStatus s v).ieErr = s.ieErr := by
  unfold writeStatus; split <;> split <;> simp
@[simp] theorem writeStatus_mlock (s : State) (v : Word) :
    (writeStatus s v).mlock = s.mlock := by
  unfold writeStatus; split <;> split <;> simp
@[simp] theorem writeStatus_opw (s : State) (v : Word) :
    (writeStatus s v).opw = s.opw := by
  unfold writeStatus; split <;> split <;> simp
@[simp] theorem writeStatus_rem (s : State) (v : Word) :
    (writeStatus s v).rem = s.rem := by
  unfold writeStatus; split <;> split <;> simp
@[simp] theorem writeStatus_lenA (s : State) (v : Word) :
    (writeStatus s v).lenA = s.lenA := by
  unfold writeStatus; split <;> split <;> simp
@[simp] theorem writeStatus_lenB (s : State) (v : Word) :
    (writeStatus s v).lenB = s.lenB := by
  unfold writeStatus; split <;> split <;> simp
@[simp] theorem writeStatus_plen (s : State) (v : Word) :
    (writeStatus s v).plen = s.plen := by
  unfold writeStatus; split <;> split <;> simp
@[simp] theorem writeStatus_pklen (s : State) (v : Word) :
    (writeStatus s v).pklen = s.pklen := by
  unfold writeStatus; split <;> split <;> simp
@[simp] theorem writeStatus_weight (s : State) (v : Word) :
    (writeStatus s v).weight = s.weight := by
  unfold writeStatus; split <;> split <;> simp
@[simp] theorem writeStatus_bna (s : State) (v : Word) :
    (writeStatus s v).bna = s.bna := by
  unfold writeStatus; split <;> split <;> simp
@[simp] theorem writeStatus_bnb (s : State) (v : Word) :
    (writeStatus s v).bnb = s.bnb := by
  unfold writeStatus; split <;> split <;> simp
@[simp] theorem writeStatus_mem (s : State) (v : Word) :
    (writeStatus s v).mem = s.mem := by
  unfold writeStatus; split <;> split <;> simp
@[simp] theorem writeStatus_resets (s : State) (v : Word) :
    (writeStatus s v).resets = s.resets := by
  unfold writeStatus; split <;> split <;> simp
@[simp] theorem writeStatus_schedule (s : State) (v : Word) :
    (writeStatus s v).schedule = s.schedule := by
  unfold writeStatus; split <;> split <;> simp
@[simp] theorem writeStatus_replies (s : State) (v : Word) :
    (writeStatus s v).replies = s.replies := by
  unfold writeStatus; split <;> split <;> simp

/-! ### the outcome of a command -/

@[simp] theorem finish_eq (s : State) : finish s = .next (complete s) := rfl
@[simp] theorem raise_eq (s : State) (c : ErrCode) (w : Word) : raise s c w = .next (faultEntry s c w) := rfl

end Sys2Proof.Machine
end

