-- ==== Sys2Proof/Laws/Memory.lean ====
section
/-!
SUPPORT. What the memory operations do: reading after a patch or a clear, and that both keep the canonical
form (`Memory.wf`); then the same for bytes read through the state.
-/

namespace Sys2Proof.Machine

/-! ## Reading one address -/

theorem lookup_filter_of_pos (m : Memory) (p : Nat → Bool) (a : Nat) (h : p a = true) :
    List.lookup a (m.filter fun c => p c.1) = List.lookup a m := by
  induction m with
  | nil => rfl
  | cons c cs ih =>
    obtain ⟨k, v⟩ := c
    by_cases hk : a = k
    · subst hk
      simp [h]
    · by_cases hp : p k
      · simp [hp, List.lookup_cons, beq_false_of_ne hk, ih]
      · simp [hp, List.lookup_cons, beq_false_of_ne hk, ih]

theorem lookup_eq_none_of_forall (m : Memory) (a : Nat) (h : ∀ c ∈ m, c.1 ≠ a) :
    List.lookup a m = none := by
  induction m with
  | nil => rfl
  | cons c cs ih =>
    obtain ⟨k, v⟩ := c
    have hk : a ≠ k := fun e => h (k, v) (by simp) e.symm
    simp [List.lookup_cons, beq_false_of_ne hk, ih fun c hc => h c (by simp [hc])]

theorem lookup_append (m₁ m₂ : Memory) (a : Nat) :
    List.lookup a (m₁ ++ m₂) =
      match List.lookup a m₁ with
      | some v => some v
      | none => List.lookup a m₂ := by
  induction m₁ with
  | nil => simp [List.lookup]
  | cons c cs ih =>
    obtain ⟨k, v⟩ := c
    by_cases hk : a = k
    · subst hk
      simp
    · simp [List.lookup_cons, beq_false_of_ne hk, ih]

theorem mem_freshCells {base n : Nat} {f : Nat → Byte} {c : Host.Cell} (h : c ∈ freshCells base n f) :
    ∃ o < n, c = (base + o, f o) ∧ some (f o) ≠ background (base + o) := by
  simp only [freshCells, List.mem_filter, List.mem_map, List.mem_range] at h
  obtain ⟨⟨o, ho, rfl⟩, hne⟩ := h
  exact ⟨o, ho, rfl, by simpa using hne⟩

theorem lookup_map_range (base : Nat) (f : Nat → Byte) (n o : Nat) :
    List.lookup (base + o) (((List.range n).map fun o => (base + o, f o)).filter
        fun c => some c.2 != background c.1) =
      if o < n ∧ some (f o) ≠ background (base + o) then some (f o) else none := by
  induction n with
  | zero => simp
  | succ n ih =>
    rw [List.range_succ, List.map_append, List.filter_append, lookup_append, ih]
    by_cases ho : o < n
    · by_cases hv : some (f o) = background (base + o)
      · have hno : base + o ≠ base + n := by omega
        by_cases hb : some (f n) = background (base + n) <;>
          simp [ho, hv, hb, List.lookup, beq_false_of_ne hno]
      · simp [ho, hv, show o < n + 1 by omega]
    · by_cases hon : o = n
      · subst hon
        by_cases hb : some (f o) = background (base + o)
        · simp [hb]
        · simp [hb]
      · have hno : base + o ≠ base + n := by omega
        have : ¬ o < n + 1 := by omega
        by_cases hb : some (f n) = background (base + n) <;>
          simp [ho, this, hb, List.lookup, beq_false_of_ne hno]

/-- What `patch` does: inside the block the new bytes are read, outside it the old ones. -/
theorem Memory.get_patch (m : Memory) (base n : Nat) (f : Nat → Byte) (a : Nat) :
    (m.patch base n f).get a =
      if base ≤ a ∧ a < base + n then some (f (a - base)) else m.get a := by
  unfold Memory.get Memory.patch
  rw [lookup_append, lookup_append]
  by_cases h1 : a < base
  · have hf : List.lookup a (freshCells base n f) = none :=
      lookup_eq_none_of_forall _ _ fun c hc => by
        obtain ⟨o, _, rfl, _⟩ := mem_freshCells hc
        simp only
        omega
    have hg : List.lookup a (m.filter fun c => decide (base + n ≤ c.1)) = none :=
      lookup_eq_none_of_forall _ _ fun c hc => by
        have := (List.mem_filter.1 hc).2
        simp only [decide_eq_true_eq] at this
        omega
    rw [lookup_filter_of_pos m (fun k => decide (k < base)) a (by simpa using h1), hf, hg,
      if_neg (by omega)]
    cases List.lookup a m <;> rfl
  · have hl : List.lookup a (m.filter fun c => decide (c.1 < base)) = none :=
      lookup_eq_none_of_forall _ _ fun c hc => by
        have := (List.mem_filter.1 hc).2
        simp only [decide_eq_true_eq] at this
        omega
    rw [hl]
    by_cases h2 : a < base + n
    · obtain ⟨o, rfl⟩ : ∃ o, a = base + o := ⟨a - base, by omega⟩
      have hg : List.lookup (base + o) (m.filter fun c => decide (base + n ≤ c.1)) = none :=
        lookup_eq_none_of_forall _ _ fun c hc => by
          have := (List.mem_filter.1 hc).2
          simp only [decide_eq_true_eq] at this
          omega
      have ho : o < n := by omega
      rw [hg, if_pos ⟨by omega, h2⟩]
      unfold freshCells
      rw [lookup_map_range]
      by_cases hb : some (f o) = background (base + o)
      · simp [ho, hb]
      · simp [ho, hb]
    · have hf : List.lookup a (freshCells base n f) = none :=
        lookup_eq_none_of_forall _ _ fun c hc => by
          obtain ⟨o, _, rfl, _⟩ := mem_freshCells hc
          simp only
          omega
      rw [hf, lookup_filter_of_pos m (fun k => decide (base + n ≤ k)) a (by simp; omega),
        if_neg (by omega)]

/-- What `clear` does: inside the block the background is read, outside it the old bytes. -/
theorem Memory.get_clear (m : Memory) (base n : Nat) (a : Nat) :
    (m.clear base n).get a = if base ≤ a ∧ a < base + n then background a else m.get a := by
  unfold Memory.get Memory.clear
  by_cases h : base ≤ a ∧ a < base + n
  · have hl : List.lookup a (m.filter fun c => decide (c.1 < base ∨ base + n ≤ c.1)) = none :=
      lookup_eq_none_of_forall _ _ fun c hc => by
        have := (List.mem_filter.1 hc).2
        simp only [decide_eq_true_eq] at this
        omega
    rw [hl, if_pos h]
  · rw [lookup_filter_of_pos m (fun k => decide (k < base ∨ base + n ≤ k)) a (by simp; omega),
      if_neg h]

/-! ## The canonical form -/

theorem pairwise_map_filter {m : Memory} (p : Host.Cell → Bool)
    (h : (m.map Prod.fst).Pairwise (· < ·)) : ((m.filter p).map Prod.fst).Pairwise (· < ·) := by
  rw [List.pairwise_map] at h ⊢
  exact h.filter p

theorem freshCells_pairwise (base n : Nat) (f : Nat → Byte) :
    ((freshCells base n f).map Prod.fst).Pairwise (· < ·) := by
  refine pairwise_map_filter _ ?_
  rw [List.pairwise_map, List.pairwise_map]
  exact List.pairwise_lt_range.imp (by intro a b h; simp only; omega)

/-- `patch` keeps the canonical form. -/
theorem Memory.wf_patch {m : Memory} (h : m.wf) (base n : Nat) (f : Nat → Byte) :
    (m.patch base n f).wf := by
  obtain ⟨hs, hb⟩ := h
  refine ⟨?_, ?_⟩
  · simp only [Memory.patch, List.map_append, List.pairwise_append]
    refine ⟨⟨pairwise_map_filter _ hs, freshCells_pairwise base n f, ?_⟩, pairwise_map_filter _ hs, ?_⟩
    · intro x hx y hy
      obtain ⟨c, hc, rfl⟩ := List.mem_map.1 hx
      obtain ⟨d, hd, rfl⟩ := List.mem_map.1 hy
      obtain ⟨o, _, rfl, _⟩ := mem_freshCells hd
      have := (List.mem_filter.1 hc).2
      simp only [decide_eq_true_eq] at this
      simp only
      omega
    · intro x hx y hy
      obtain ⟨d, hd, rfl⟩ := List.mem_map.1 hy
      have hd' := (List.mem_filter.1 hd).2
      simp only [decide_eq_true_eq] at hd'
      rcases List.mem_append.1 hx with hx | hx
      · obtain ⟨c, hc, rfl⟩ := List.mem_map.1 hx
        have := (List.mem_filter.1 hc).2
        simp only [decide_eq_true_eq] at this
        omega
      · obtain ⟨c, hc, rfl⟩ := List.mem_map.1 hx
        obtain ⟨o, ho, rfl, _⟩ := mem_freshCells hc
        simp only
        omega
  · intro c hc
    rcases List.mem_append.1 hc with hc | hc
    · rcases List.mem_append.1 hc with hc | hc
      · exact hb c (List.mem_filter.1 hc).1
      · obtain ⟨o, _, rfl, hne⟩ := mem_freshCells hc
        exact hne
    · exact hb c (List.mem_filter.1 hc).1

/-- `clear` keeps the canonical form. -/
theorem Memory.wf_clear {m : Memory} (h : m.wf) (base n : Nat) : (m.clear base n).wf :=
  ⟨pairwise_map_filter _ h.1, fun c hc => h.2 c (List.mem_filter.1 hc).1⟩

/-- The memory right after reset is in canonical form. -/
theorem reset_mem_wf : State.reset.mem.wf := by decide

/-- The addresses a patched memory lists: old ones, or inside the block. -/
theorem Memory.mem_patch {m : Memory} {base n : Nat} {f : Nat → Byte} {c : Host.Cell}
    (h : c ∈ m.patch base n f) : c ∈ m ∨ (base ≤ c.1 ∧ c.1 < base + n) := by
  rcases List.mem_append.1 h with h | h
  · rcases List.mem_append.1 h with h | h
    · exact .inl (List.mem_filter.1 h).1
    · obtain ⟨o, ho, rfl, _⟩ := mem_freshCells h
      exact .inr ⟨by simp only; omega, by simp only; omega⟩
  · exact .inl (List.mem_filter.1 h).1

/-- A cleared memory lists only entries it listed before. -/
theorem Memory.mem_clear {m : Memory} {base n : Nat} {c : Host.Cell} (h : c ∈ m.clear base n) :
    c ∈ m := (List.mem_filter.1 h).1

/-! ## Bytes read through the state -/

/-- A byte read depends on the memory and the reset epoch only. -/
theorem readByte_congr {s t : State} (hm : t.mem = s.mem) (hr : t.resets = s.resets) (a : Nat) :
    readByte t a = readByte s a := by
  unfold readByte
  rw [hm, hr]

/-- Reading after a block was written into a state's memory. -/
theorem readByte_patch {s t : State} {base n : Nat} {f : Nat → Byte}
    (hm : t.mem = s.mem.patch base n f) (hr : t.resets = s.resets) (a : Nat) :
    readByte t a = if base ≤ a ∧ a < base + n then f (a - base) else readByte s a := by
  unfold readByte
  rw [hm, hr, Memory.get_patch]
  by_cases h : base ≤ a ∧ a < base + n
  · rw [if_pos h, if_pos h]
  · rw [if_neg h, if_neg h]

/-- Reading after a buffer was written (R67). -/
theorem readByte_writeBuf (s : State) (b : Buf) (n : Nat) (f : Nat → Byte) (a : Nat) :
    readByte (writeBuf s b n f) a =
      if bufBase b ≤ a ∧ a < bufBase b + n then f (a - bufBase b) else readByte s a :=
  readByte_patch (s := s) (t := writeBuf s b n f) rfl rfl a

/-- What `clearBufs` does: inside the buffers the background is read, outside them the old bytes. -/
theorem Memory.get_clearBufs (m : Memory) (bs : List Buf) (a : Nat) :
    (m.clearBufs bs).get a =
      if ∃ b ∈ bs, bufBase b ≤ a ∧ a < bufBase b + bufSize b then background a else m.get a := by
  unfold Memory.clearBufs
  induction bs generalizing m with
  | nil => simp
  | cons b bs ih =>
    rw [List.foldl_cons, ih, Memory.get_clear]
    by_cases hb : bufBase b ≤ a ∧ a < bufBase b + bufSize b
    · simp [hb]
    · simp [hb]

/-- `clearBufs` keeps the canonical form. -/
theorem Memory.wf_clearBufs {m : Memory} (h : m.wf) (bs : List Buf) : (m.clearBufs bs).wf := by
  unfold Memory.clearBufs
  induction bs generalizing m with
  | nil => exact h
  | cons b bs ih => exact ih (Memory.wf_clear h _ _)

/-- A memory with cleared buffers lists only entries it listed before. -/
theorem Memory.mem_clearBufs {m : Memory} {bs : List Buf} {c : Host.Cell} (h : c ∈ m.clearBufs bs) :
    c ∈ m := by
  unfold Memory.clearBufs at h
  induction bs generalizing m with
  | nil => exact h
  | cons b bs ih => exact Memory.mem_clear (ih h)

end Sys2Proof.Machine
end

