-- ==== Sys2Proof/Laws/Operands.lean ====
section
/-!
SUPPORT. What the writes of bits and elements do, in the same units (20_memory.md R67 to R70).
-/

namespace Sys2Proof.Machine

/-! ## Bytes, halves, words and packed bits -/

/-- Packing eight bits and reading one of them back (R70). -/
theorem byteBit_packByte (g : Nat → Bool) {t : Nat} (ht : t < 8) : byteBit (packByte g) t = g t := by
  unfold byteBit packByte
  interval_cases t <;> simp only [BitVec.getLsbD_append, BitVec.getLsbD_ofBool] <;> simp

/-- A 16-bit element is its two bytes (R69). -/
theorem half_of_bytes (v : Half) : (halfByte v 1 ++ halfByte v 0 : Half) = v := by
  apply BitVec.eq_of_getLsbD_eq
  intro i hi
  simp only [halfByte, BitVec.getLsbD_append, BitVec.getLsbD_extractLsb']
  by_cases h : i < 8
  · simp [h]
  · simp [h, show i - 8 < 8 by omega, show 8 + (i - 8) = i by omega]

/-- A word is its four bytes in lane order (R67). -/
theorem word_of_bytes (v : Word) :
    wordOfBytes (wordByte v 0) (wordByte v 1) (wordByte v 2) (wordByte v 3) = v := by
  apply BitVec.eq_of_getLsbD_eq
  intro i hi
  simp only [wordOfBytes, wordByte, BitVec.getLsbD_append, BitVec.getLsbD_extractLsb']
  by_cases h : i < 8
  · simp [h]
  · by_cases h2 : i - 8 < 8
    · simp [h, h2, show 8 + (i - 8) = i by omega]
    · by_cases h3 : i - 8 - 8 < 8
      · simp [h, h2, h3, show 16 + (i - 8 - 8) = i by omega]
      · simp [h, h2, h3, show i - 8 - 8 - 8 < 8 by omega, show 24 + (i - 8 - 8 - 8) = i by omega]

/-- The bytes of a word put together from four bytes (R67). -/
theorem wordByte_wordOfBytes (b0 b1 b2 b3 : Byte) :
    wordByte (wordOfBytes b0 b1 b2 b3) 0 = b0 ∧ wordByte (wordOfBytes b0 b1 b2 b3) 1 = b1 ∧
      wordByte (wordOfBytes b0 b1 b2 b3) 2 = b2 ∧ wordByte (wordOfBytes b0 b1 b2 b3) 3 = b3 := by
  refine ⟨?_, ?_, ?_, ?_⟩ <;> apply BitVec.eq_of_getLsbD_eq <;> intro i hi <;>
    simp only [wordOfBytes, wordByte, BitVec.getLsbD_append, BitVec.getLsbD_extractLsb', hi,
      decide_true, Bool.true_and, Nat.mul_zero, Nat.zero_add, if_true]
  · rw [if_neg (by omega), if_pos (by omega)]
    congr 1
    omega
  · rw [if_neg (by omega), if_neg (by omega), if_pos (by omega)]
    congr 1
    omega
  · rw [if_neg (by omega), if_neg (by omega), if_neg (by omega)]
    congr 1
    omega

/-! ## Views of equal bytes are equal -/

/-- A buffer's bytes read the same in two states that agree on them. -/
theorem bufByte_congr {s t : State} {b : Buf} {o : Nat}
    (h : readByte t (bufBase b + o) = readByte s (bufBase b + o)) : bufByte t b o = bufByte s b o := h

theorem bufBit_congr {s t : State} {b : Buf} {i : Nat} (h : bufByte t b (i / 8) = bufByte s b (i / 8)) :
    bufBit t b i = bufBit s b i := by
  unfold bufBit
  rw [h]

theorem sigAt_congr {s t : State} {i : Nat} (h0 : bufByte t .sig (2 * i) = bufByte s .sig (2 * i))
    (h1 : bufByte t .sig (2 * i + 1) = bufByte s .sig (2 * i + 1)) : sigAt t i = sigAt s i := by
  unfold sigAt
  rw [h0, h1]

/-! ## SIG -/

/-- Every byte after SIG[0..n−1] was written (R69). -/
theorem readByte_writeSig (s : State) (n : Nat) (f : Nat → Half) (a : Nat) :
    readByte (writeSig s n f) a =
      if bufBase .sig ≤ a ∧ a < bufBase .sig + 2 * n then
        halfByte (f ((a - bufBase .sig) / 2)) ((a - bufBase .sig) % 2)
      else readByte s a := readByte_writeBuf s .sig (2 * n) _ a

/-- Every element of SIG after SIG[0..n−1] was written: the new ones below `n`, the old ones from there. -/
theorem sigAt_writeSig (s : State) (n : Nat) (f : Nat → Half) (i : Nat) :
    sigAt (writeSig s n f) i = if i < n then f i else sigAt s i := by
  unfold sigAt bufByte
  rw [readByte_writeSig, readByte_writeSig]
  by_cases h : i < n
  · rw [if_pos (by omega), if_pos (by omega), if_pos h,
      show (bufBase .sig + (2 * i + 1) - bufBase .sig) / 2 = i by omega,
      show (bufBase .sig + (2 * i + 1) - bufBase .sig) % 2 = 1 by omega,
      show (bufBase .sig + 2 * i - bufBase .sig) / 2 = i by omega,
      show (bufBase .sig + 2 * i - bufBase .sig) % 2 = 0 by omega]
    exact half_of_bytes (f i)
  · rw [if_neg (by omega), if_neg (by omega), if_neg h]

/-! ## Packed vectors -/

/-- Every byte after bits 0 to n − 1 of a vector were written (R70). -/
theorem readByte_writeBits (s : State) (b : Buf) (n : Nat) (g : Nat → Bool) (a : Nat) :
    readByte (writeBits s b n g) a =
      if bufBase b ≤ a ∧ a < bufBase b + bitBytes n then
        packByte fun t => decide (8 * (a - bufBase b) + t < n) && g (8 * (a - bufBase b) + t)
      else readByte s a := readByte_writeBuf s b (bitBytes n) _ a

/-- Every bit of a vector after bits 0 to n − 1 of it were written: the new ones below `n`, 0 in the pad
bits of the last byte, the old ones beyond (R115). -/
theorem bufBit_writeBits (s : State) (b : Buf) (n : Nat) (g : Nat → Bool) (i : Nat) :
    bufBit (writeBits s b n g) b i =
      if i < n then g i else if i < 8 * bitBytes n then false else bufBit s b i := by
  unfold bufBit bufByte
  rw [readByte_writeBits]
  by_cases h : i < 8 * bitBytes n
  · rw [if_pos ⟨by omega, by omega⟩, byteBit_packByte _ (Nat.mod_lt _ (by omega)),
      show 8 * (bufBase b + i / 8 - bufBase b) + i % 8 = i by omega]
    by_cases hn : i < n
    · simp [hn]
    · simp [hn, h]
  · have hn : ¬ i < n := by
      unfold bitBytes at h
      omega
    rw [if_neg (by omega), if_neg hn, if_neg h]

/-! ## Big-integer registers (R141) -/

theorem padWords_toList (n : Nat) (xs : List Word) (h : xs.length ≤ n) :
    (padWords n xs).toList = xs ++ List.replicate (n - xs.length) 0 := by
  apply List.ext_getElem
  · simp
    omega
  · intro i h1 h2
    simp only [Vector.length_toList] at h1
    simp only [padWords, Vector.getElem_toList, Vector.getElem_ofFn]
    by_cases hi : i < xs.length
    · rw [List.getElem_append_left hi]
      simp [hi]
    · rw [List.getElem_append_right (by omega)]
      simp [List.getD_eq_getElem?_getD, List.getElem?_eq_none (by omega : xs.length ≤ i)]

theorem bnCap_bna : bnCap .bna = 32 := rfl
theorem bnCap_bnb : bnCap .bnb = 16 := rfl

/-- A register's array has as many words as its capacity (R37). -/
theorem bnArray_length (s : State) (d : BnSel) : (bnArray s d).length = bnCap d := by
  cases d <;> simp [bnArray, bnCap, Config.capA, Config.capB]

/-- All words of a register after `BN[d] <- (n', x)`: the words, then zeros (R141). -/
theorem bnArray_writeBn (s : State) (d : BnSel) (xs : List Word) (h : xs.length ≤ bnCap d) :
    bnArray (writeBn s d xs) d = xs ++ List.replicate (bnCap d - xs.length) 0 := by
  cases d
  · exact padWords_toList 32 xs h
  · exact padWords_toList 16 xs h

/-- The length after `BN[d] <- (n', x)` (R141). -/
theorem bnLen_writeBn (s : State) (d : BnSel) (xs : List Word) (h : xs.length ≤ bnCap d) :
    bnLen (writeBn s d xs) d = xs.length := by
  cases d
  · have : xs.length ≤ 32 := h
    simp only [writeBn, bnLen, BitVec.toNat_ofNat]
    omega
  · have : xs.length ≤ 16 := h
    simp only [writeBn, bnLen, BitVec.toNat_ofNat]
    omega

/-- What a command reads from a register after `BN[d] <- (n', x)` (R141). -/
theorem bnWords_writeBn (s : State) (d : BnSel) (xs : List Word) (h : xs.length ≤ bnCap d) :
    bnWords (writeBn s d xs) d = xs := by
  unfold bnWords
  rw [bnArray_writeBn s d xs h, bnLen_writeBn s d xs h, List.take_left']
  rfl

/-- The words read from a register: at most its capacity (R33, R37). -/
theorem bnWords_length_le (s : State) (d : BnSel) : (bnWords s d).length ≤ bnCap d := by
  unfold bnWords
  rw [List.length_take, bnArray_length]
  exact Nat.min_le_right _ _

theorem bnWords_length (s : State) (d : BnSel) (h : bnLen s d ≤ bnCap d) :
    (bnWords s d).length = bnLen s d := by
  unfold bnWords
  rw [List.length_take, bnArray_length]
  omega

/-- All words of a big-integer register after the host wrote word `i` of it (R37). -/
theorem bnArray_setBnWord (s : State) (d : BnSel) (i : Nat) (v : Word) :
    bnArray (setBnWord s d i v) d = (bnArray s d).set i v := by
  cases d <;> simp only [setBnWord, bnArray, Vector.toList_setIfInBounds]

end Sys2Proof.Machine
end

