-- ==== Sys2Proof/Laws/Bignum.lean ====
section
/-!
SUPPORT. What the list operations of the BN unit compute, in terms of the value of a list of words
(43_bignum.md R143 to R149).
-/

namespace Sys2Proof.Machine

/-! ## Values -/

theorem wordsVal_lt (ws : List Word) : wordsVal ws < 2 ^ (32 * ws.length) := by
  induction ws with
  | nil => simp [wordsVal]
  | cons w ws ih =>
    have hw := w.isLt
    have : 2 ^ (32 * (w :: ws).length) = 2 ^ 32 * 2 ^ (32 * ws.length) := by
      rw [List.length_cons, Nat.mul_succ, Nat.add_comm, Nat.pow_add]
    rw [this, wordsVal]
    nlinarith

theorem wordsVal_append (xs ys : List Word) :
    wordsVal (xs ++ ys) = wordsVal xs + 2 ^ (32 * xs.length) * wordsVal ys := by
  induction xs with
  | nil => simp [wordsVal]
  | cons x xs ih =>
    have : 2 ^ (32 * (x :: xs).length) = 2 ^ 32 * 2 ^ (32 * xs.length) := by
      rw [List.length_cons, Nat.mul_succ, Nat.add_comm, Nat.pow_add]
    rw [List.cons_append, wordsVal, wordsVal, ih, this]
    ring

theorem wordsVal_drop (ws : List Word) (k : Nat) :
    wordsVal (ws.drop k) = wordsVal ws / 2 ^ (32 * k) := by
  induction k generalizing ws with
  | zero => simp
  | succ k ih =>
    cases ws with
    | nil => simp [wordsVal]
    | cons w ws =>
      have hw := w.isLt
      rw [List.drop_succ_cons, ih, wordsVal, Nat.mul_succ, Nat.add_comm (32 * k) 32, Nat.pow_add,
        ← Nat.div_div_eq_div_mul]
      congr 1
      omega

/-! ## Stripping leading zero words (R143, R149) -/

/-- A list of words whose top word is not zero, or the empty list (R38). -/
def NormalWords (ws : List Word) : Prop := ∀ top, ws.getLast? = some top → top ≠ 0

theorem stripZeros_val (ws : List Word) : wordsVal (stripZeros ws) = wordsVal ws := by
  induction ws with
  | nil => rfl
  | cons w ws ih =>
    unfold stripZeros
    split
    · next h =>
      rw [h] at ih
      by_cases hw : w = 0
      · simp [hw, wordsVal, ← ih]
      · rw [if_neg hw]
        simp [wordsVal, ← ih]
    · next v vs h =>
      rw [h] at ih
      rw [wordsVal, ih, wordsVal]

theorem stripZeros_normal (ws : List Word) : NormalWords (stripZeros ws) := by
  induction ws with
  | nil => intro top h; simp [stripZeros] at h
  | cons w ws ih =>
    intro top
    unfold stripZeros
    split
    · by_cases hw : w = 0
      · simp [hw]
      · simp only [hw, if_false, List.getLast?_singleton, Option.some.injEq]
        rintro rfl
        exact hw
    · next v vs h =>
      rw [h] at ih
      rw [List.getLast?_cons_cons]
      exact ih top

theorem stripZeros_length_le (ws : List Word) : (stripZeros ws).length ≤ ws.length := by
  induction ws with
  | nil => simp [stripZeros]
  | cons w ws ih =>
    unfold stripZeros
    split
    · by_cases hw : w = 0
      · simp [hw]
      · rw [if_neg hw]
        simp
    · next v vs h =>
      rw [h] at ih
      simpa using ih

/-- A normalised list is empty exactly when its value is 0 (R152). -/
theorem NormalWords.eq_nil_iff {ws : List Word} (h : NormalWords ws) : ws = [] ↔ wordsVal ws = 0 := by
  constructor
  · rintro rfl
    rfl
  · intro hv
    by_contra hne
    obtain ⟨xs, x, rfl⟩ := List.eq_nil_or_concat ws |>.resolve_left hne
    have hx : x ≠ 0 := h x (by simp)
    rw [List.concat_eq_append, wordsVal_append] at hv
    have hp : 0 < 2 ^ (32 * xs.length) := Nat.pow_pos (by omega)
    have : wordsVal [x] = 0 := by
      rcases Nat.eq_zero_of_add_eq_zero_left hv |> Nat.mul_eq_zero.1 with h | h
      · omega
      · exact h
    apply hx
    apply BitVec.eq_of_toNat_eq
    simpa [wordsVal] using this

/-! ## Multiplication by a word (R144) -/

theorem mulLoop_val (m : Word) (c : Nat) (ws : List Word) (hc : c < 2 ^ 32) :
    wordsVal (mulLoop m c ws) = wordsVal ws * m.toNat + c := by
  induction ws generalizing c with
  | nil =>
    unfold mulLoop
    by_cases h : c = 0
    · simp [h, wordsVal]
    · simp only [h, if_false, wordsVal, BitVec.toNat_ofNat]
      omega
  | cons w ws ih =>
    have hw := w.isLt
    have hm := m.isLt
    have ht : w.toNat * m.toNat + c < 2 ^ 32 * 2 ^ 32 := by nlinarith
    rw [mulLoop, wordsVal, wordsVal, ih _ (Nat.div_lt_of_lt_mul ht), BitVec.toNat_ofNat]
    have := Nat.mod_add_div (w.toNat * m.toNat + c) (2 ^ 32)
    nlinarith

/-- The product loop keeps the length or appends one word, the latter exactly when the product needs it. -/
theorem mulLoop_length (m : Word) (c : Nat) (ws : List Word) (hc : c < 2 ^ 32) :
    (mulLoop m c ws).length =
      if wordsVal ws * m.toNat + c < 2 ^ (32 * ws.length) then ws.length else ws.length + 1 := by
  induction ws generalizing c with
  | nil =>
    unfold mulLoop
    by_cases h : c = 0
    · simp [h, wordsVal]
    · have : ¬ c < 1 := by omega
      simp [h, wordsVal]
  | cons w ws ih =>
    have hw := w.isLt
    have hm := m.isLt
    have ht : w.toNat * m.toNat + c < 2 ^ 32 * 2 ^ 32 := by nlinarith
    have hdm := Nat.mod_add_div (w.toNat * m.toNat + c) (2 ^ 32)
    have hmod := Nat.mod_lt (w.toNat * m.toNat + c) (show 0 < 2 ^ 32 by omega)
    rw [mulLoop, List.length_cons, ih _ (Nat.div_lt_of_lt_mul ht), wordsVal, List.length_cons]
    have hp : 2 ^ (32 * (ws.length + 1)) = 2 ^ 32 * 2 ^ (32 * ws.length) := by
      rw [Nat.mul_succ, Nat.add_comm, Nat.pow_add]
    have he : (w.toNat + 2 ^ 32 * wordsVal ws) * m.toNat + c =
        (w.toNat * m.toNat + c) + 2 ^ 32 * (wordsVal ws * m.toNat) := by ring
    rw [hp, he]
    by_cases h : wordsVal ws * m.toNat + (w.toNat * m.toNat + c) / 2 ^ 32 < 2 ^ (32 * ws.length)
    · rw [if_pos h, if_pos]
      omega
    · rw [if_neg h, if_neg]
      omega

/-- The product's value is exact (R144). -/
theorem mulWords_val (m : Word) (ws : List Word) :
    wordsVal (mulWords m ws) = wordsVal ws * m.toNat := by
  unfold mulWords
  by_cases h : m = 0
  · simp [h, wordsVal]
  · rw [if_neg h, mulLoop_val m 0 ws (by omega), Nat.add_zero]

theorem mulWords_length (m : Word) (ws : List Word) :
    (mulWords m ws).length =
      if m = 0 then 0
      else if wordsVal ws * m.toNat < 2 ^ (32 * ws.length) then ws.length else ws.length + 1 := by
  unfold mulWords
  by_cases h : m = 0
  · simp [h]
  · rw [if_neg h, if_neg h, mulLoop_length m 0 ws (by omega), Nat.add_zero]

/-! ## Division by 3 (R146) -/

theorem divLoop_length (ws : List Word) : (divLoop ws).1.length = ws.length := by
  induction ws with
  | nil => rfl
  | cons w ws ih => simp [divLoop, ih]

theorem divLoop_rem_lt (ws : List Word) : (divLoop ws).2 < 3 := by
  cases ws with
  | nil => simp [divLoop]
  | cons w ws => exact Nat.mod_lt _ (by omega)

theorem divLoop_val (ws : List Word) :
    3 * wordsVal (divLoop ws).1 + (divLoop ws).2 = wordsVal ws := by
  induction ws with
  | nil => rfl
  | cons w ws ih =>
    have hw := w.isLt
    have hr := divLoop_rem_lt ws
    simp only [divLoop, wordsVal, BitVec.toNat_ofNat]
    omega

/-- The remainder is the value modulo 3 (R146). -/
theorem remOf_eq (ws : List Word) : remOf ws = wordsVal ws % 3 := by
  have := divLoop_val ws
  have := divLoop_rem_lt ws
  unfold remOf
  omega

/-- The top quotient word is 0 when the dividend's top word is below 3 (R146: "so no value is lost"). -/
theorem divLoop_top (ws : List Word) :
    (divLoop ws).1.getLast? = ws.getLast?.map fun w => BitVec.ofNat 32 (w.toNat / 3) := by
  induction ws with
  | nil => rfl
  | cons w ws ih =>
    cases ws with
    | nil => simp [divLoop]
    | cons v vs =>
      rw [List.getLast?_cons_cons, ← ih]
      simp only [divLoop, List.getLast?_cons_cons]

/-- The quotient's value is exact (R146). -/
theorem quotWords_val (ws : List Word) : wordsVal (quotWords ws) = wordsVal ws / 3 := by
  have hv := divLoop_val ws
  have hr := divLoop_rem_lt ws
  have hq : wordsVal (quotWords ws) = wordsVal (divLoop ws).1 := by
    unfold quotWords quotLen
    have htop := divLoop_top ws
    have hl := divLoop_length ws
    rcases List.eq_nil_or_concat ws with rfl | ⟨xs, x, rfl⟩
    · rfl
    · simp only [List.concat_eq_append, List.getLast?_append, List.getLast?_singleton, Option.some_or,
        Option.map_some] at htop ⊢
      split
      · next h =>
        rcases List.eq_nil_or_concat (divLoop (xs ++ [x])).1 with he | ⟨qs, q, he⟩
        · simp [he] at htop
        · rw [List.concat_eq_append] at he
          simp only [List.concat_eq_append] at hl
          rw [he] at hl htop ⊢
          have hq0 : q = 0 := by
            simp only [List.getLast?_append, List.getLast?_singleton, Option.some_or,
              Option.some.injEq] at htop
            rw [htop, Nat.div_eq_of_lt h]
            rfl
          have : (xs ++ [x]).length - 1 = qs.length := by simp at hl ⊢; omega
          rw [this, List.take_left', wordsVal_append, hq0]
          · simp [wordsVal]
          · rfl
      · rw [List.take_of_length_le]
        simp only [List.concat_eq_append] at hl
        omega
  rw [hq]
  omega

/-- The quotient's length (R146: "Quotient length is dividend length, or one less if the top word was
already below the divisor"). -/
theorem quotWords_length (ws : List Word) : (quotWords ws).length = quotLen ws := by
  unfold quotWords
  rw [List.length_take, divLoop_length]
  unfold quotLen
  split
  · simp
  · split <;> omega

end Sys2Proof.Machine
end

