-- ==== Sys2Proof/Laws/Bus.lean ====
section
/-!
SUPPORT. What a host access can do (20_memory.md R60 to R69): where an aligned address lies, one inversion
lemma for accepted writes, and the independence of accesses from the model's own schedule.
-/

namespace Sys2Proof.Machine

/-! ## Where an address lies (R66) -/

theorem locate_of_lt {a : Nat} (h : a < 0x38) : locate a = (regMap[a / 4]?).map .reg := by
  unfold locate
  rw [if_pos h]

theorem locate_of_bna {i : Nat} (h : i < 32) : locate (0x100 + 4 * i) = some (.bn .bna i) := by
  unfold locate
  rw [if_neg (by omega), if_pos (by omega), show (0x100 + 4 * i - 0x100) / 4 = i by omega]

theorem locate_of_bnb {i : Nat} (h : i < 16) : locate (0x180 + 4 * i) = some (.bn .bnb i) := by
  unfold locate
  rw [if_neg (by omega), if_neg (by omega), if_pos (by omega),
    show (0x180 + 4 * i - 0x180) / 4 = i by omega]

theorem locate_of_buf {b : Buf} {q : Nat} (h : 4 * q < bufSpan b) :
    locate (bufBase b + 4 * q) = some (.buf b q) := by
  have hr : 0x200 ≤ bufBase b := by cases b <;> simp [bufBase]
  unfold locate
  rw [if_neg (by omega), if_neg (by omega), if_neg (by omega)]
  have hf : allBufs.find? (fun c => decide (bufBase c ≤ bufBase b + 4 * q ∧
      bufBase b + 4 * q < bufBase c + bufSpan c)) = some b := by
    have hne : ∀ c, c ≠ b → ¬(bufBase c ≤ bufBase b + 4 * q ∧
        bufBase b + 4 * q < bufBase c + bufSpan c) := by
      intro c hc
      revert hc h
      cases b <;> cases c <;> simp only [bufBase, bufSpan, bufSize] <;>
        first | (intros; omega) | simp
    have hself : bufBase b ≤ bufBase b + 4 * q ∧ bufBase b + 4 * q < bufBase b + bufSpan b := by omega
    rw [List.find?_eq_some_iff_append]
    refine ⟨by simpa using hself, ?_⟩
    have hsplit : ∃ as bs, allBufs = as ++ b :: bs ∧ ∀ c ∈ as, c ≠ b := by
      cases b
      · exact ⟨[], _, rfl, by decide⟩
      · exact ⟨[.hash], _, rfl, by decide⟩
      · exact ⟨[.hash, .ch], _, rfl, by decide⟩
      · exact ⟨[.hash, .ch, .va], _, rfl, by decide⟩
      · exact ⟨[.hash, .ch, .va, .vb], _, rfl, by decide⟩
      · exact ⟨[.hash, .ch, .va, .vb, .sy], _, rfl, by decide⟩
      · exact ⟨[.hash, .ch, .va, .vb, .sy, .sig], _, rfl, by decide⟩
      · exact ⟨[.hash, .ch, .va, .vb, .sy, .sig, .pk], _, rfl, by decide⟩
      · exact ⟨[.hash, .ch, .va, .vb, .sy, .sig, .pk, .ent], _, rfl, by decide⟩
    obtain ⟨as, bs, hab, has⟩ := hsplit
    exact ⟨as, bs, hab, fun c hc => by
      simpa only [decide_eq_false_iff_not, Bool.not_eq_true', decide_eq_true_eq] using hne c (has c hc)⟩
  rw [hf]
  simp only [Option.map_some, Option.some.injEq, Target.buf.injEq, true_and]
  omega

theorem locate_eq_reg {a : Nat} {r : Reg} (h : locate a = some (.reg r)) :
    a < 0x38 ∧ regMap[a / 4]? = some r := by
  unfold locate at h
  split at h
  · next hlt => exact ⟨hlt, by simpa using h⟩
  · split at h
    · simp at h
    · split at h <;> simp at h

theorem locate_eq_bn {a i : Nat} {d : BnSel} (h : locate a = some (.bn d i)) : i < bnCap d := by
  unfold locate at h
  split at h
  · simp at h
  · split at h
    · simp only [Option.some.injEq, Target.bn.injEq] at h
      obtain ⟨rfl, rfl⟩ := h
      simp only [bnCap, Config.capA]
      omega
    · split at h
      · simp only [Option.some.injEq, Target.bn.injEq] at h
        obtain ⟨rfl, rfl⟩ := h
        simp only [bnCap, Config.capB]
        omega
      · simp at h

theorem locate_eq_buf {a q : Nat} {b : Buf} (h : locate a = some (.buf b q)) :
    bufBase b ≤ a ∧ a < bufBase b + bufSpan b ∧ q = (a - bufBase b) / 4 := by
  unfold locate at h
  split at h
  · simp at h
  · split at h
    · simp at h
    · split at h
      · simp at h
      · simp only [Option.map_eq_some_iff, Target.buf.injEq] at h
        obtain ⟨c, hc, rfl, rfl⟩ := h
        have := List.find?_some hc
        simp only [decide_eq_true_eq] at this
        exact ⟨this.1, this.2, rfl⟩

/-- A located buffer word begins inside the buffer, not in its pad bytes (R68). -/
theorem locate_buf_lt {a q : Nat} {b : Buf} (h : locate a = some (.buf b q)) : 4 * q < bufSize b := by
  obtain ⟨h1, h2, rfl⟩ := locate_eq_buf h
  revert h1 h2
  cases b <;> simp only [bufBase, bufSpan, bufSize] <;> omega

theorem target_word {addr : BitVec 19} (h : addr.toNat % 4 = 0) :
    target addr .word = locate addr.toNat := by
  unfold target
  rw [if_pos ⟨rfl, h⟩]

theorem target_eq_some {addr : BitVec 19} {width : Width} {t : Target} (h : target addr width = some t) :
    width = .word ∧ addr.toNat % 4 = 0 ∧ locate addr.toNat = some t := by
  unfold target at h
  split at h
  · next hc => exact ⟨hc.1, hc.2, h⟩
  · simp at h

/-! ## Accepted writes -/

/-- All that a host write answered OKAY can do (R62, R64, R65, R171). -/
theorem busWrite_cases {s t : State} {addr : BitVec 19} {width : Width} {v : Word}
    (h : busWrite s addr width v = some t) :
    (s.busy = false ∧ (s.err = false ∨ v = 1) ∧ t = accept s v) ∨
    (addr.toNat = 0x10 ∧ width = .word ∧ t = writeStatus s v) ∨
    (addr.toNat = 0x14 ∧ width = .word ∧ t = writeCtrl s v) ∨
    (s.busy = false ∧ t = { s with opw := v }) ∨
    (s.busy = false ∧ v.toNat ≤ 32 ∧ t = { s with lenA := v.setWidth 6 }) ∨
    (s.busy = false ∧ v.toNat ≤ 16 ∧ t = { s with lenB := v.setWidth 6 }) ∨
    (s.busy = false ∧ v.toNat ≤ 2896 ∧ t = { s with plen := v.setWidth 12 }) ∨
    (s.busy = false ∧ v.toNat ≤ 4344 ∧ t = { s with pklen := v.setWidth 13 }) ∨
    (s.busy = false ∧ ∃ d i, i < bnCap d ∧ t = setBnWord s d i v) ∨
    (s.busy = false ∧ ∃ b q, bufWritable s b = true ∧ 4 * q < bufSize b ∧ t = storeWord s b q v) := by
  unfold busWrite at h
  cases ht : target addr width with
  | none => simp [ht] at h
  | some tg =>
    obtain ⟨hw, h4, hl⟩ := target_eq_some ht
    rw [ht] at h
    cases tg with
    | reg r =>
      obtain ⟨hlt, hr⟩ := locate_eq_reg hl
      have hadr : ∀ k, addr.toNat / 4 = k → addr.toNat = 4 * k := by omega
      cases r with
      | id => simp [writeTarget, writeReg] at h
      | param0 => simp [writeTarget, writeReg] at h
      | param1 => simp [writeTarget, writeReg] at h
      | errInfo => simp [writeTarget, writeReg] at h
      | rem => simp [writeTarget, writeReg] at h
      | weight => simp [writeTarget, writeReg] at h
      | cmd =>
        left
        simp only [writeTarget, writeReg, writeCmd, Option.ite_none_right_eq_some,
          Option.some.injEq] at h
        obtain ⟨hc, rfl⟩ := h
        revert hc
        unfold idle inFault
        cases s.busy <;> cases s.err <;> simp
      | status =>
        right; left
        refine ⟨?_, hw, ?_⟩
        · have hk : addr.toNat / 4 < 14 := by omega
          generalize hkk : addr.toNat / 4 = k at hr hk
          interval_cases k <;> first | (simp [regMap] at hr; done) | exact hadr _ hkk
        · simp only [writeTarget, writeReg, Option.some.injEq] at h
          exact h.symm
      | ctrl =>
        right; right; left
        refine ⟨?_, hw, ?_⟩
        · have hk : addr.toNat / 4 < 14 := by omega
          generalize hkk : addr.toNat / 4 = k at hr hk
          interval_cases k <;> first | (simp [regMap] at hr; done) | exact hadr _ hkk
        · simp only [writeTarget, writeReg, Option.some.injEq] at h
          exact h.symm
      | opw =>
        right; right; right; left
        simp only [writeTarget, writeReg, Option.ite_none_left_eq_some, Option.some.injEq,
          Bool.not_eq_true] at h
        exact ⟨h.1, h.2.symm⟩
      | lenA =>
        right; right; right; right; left
        simp only [writeTarget, writeReg, Config.capA, Option.ite_none_left_eq_some, Option.some.injEq,
          Bool.or_eq_true, not_or, Bool.not_eq_true] at h
        exact ⟨h.1.1, Nat.le_of_not_lt (of_decide_eq_false h.1.2), h.2.symm⟩
      | lenB =>
        right; right; right; right; right; left
        simp only [writeTarget, writeReg, Config.capB, Option.ite_none_left_eq_some, Option.some.injEq,
          Bool.or_eq_true, not_or, Bool.not_eq_true] at h
        exact ⟨h.1.1, Nat.le_of_not_lt (of_decide_eq_false h.1.2), h.2.symm⟩
      | plen =>
        right; right; right; right; right; right; left
        simp only [writeTarget, writeReg, Config.codeLength, Option.ite_none_left_eq_some, Option.some.injEq,
          Bool.or_eq_true, not_or, Bool.not_eq_true] at h
        exact ⟨h.1.1, Nat.le_of_not_lt (of_decide_eq_false h.1.2), h.2.symm⟩
      | pklen =>
        right; right; right; right; right; right; right; left
        simp only [writeTarget, writeReg, Config.packedBytes, Option.ite_none_left_eq_some, Option.some.injEq,
          Bool.or_eq_true, not_or, Bool.not_eq_true] at h
        exact ⟨h.1.1, Nat.le_of_not_lt (of_decide_eq_false h.1.2), h.2.symm⟩
    | bn d i =>
      right; right; right; right; right; right; right; right; left
      simp only [writeTarget, Option.ite_none_left_eq_some, Option.some.injEq, Bool.not_eq_true] at h
      exact ⟨h.1, d, i, locate_eq_bn hl, h.2.symm⟩
    | buf b q =>
      right; right; right; right; right; right; right; right; right
      simp only [writeTarget, Option.ite_none_left_eq_some, Option.some.injEq, Bool.or_eq_true,
        Bool.not_eq_true', not_or, Bool.not_eq_true, Bool.not_eq_false] at h
      exact ⟨h.1.1, b, q, h.1.2, locate_buf_lt hl, h.2.symm⟩

/-! ## Accesses do not look at the schedule or the responses -/

theorem writeStatus_setSchedule (s : State) (es : List Event) (v : Word) :
    writeStatus (setSchedule s es) v = setSchedule (writeStatus s v) es := by
  cases h2 : v.getLsbD 2 <;> cases h1 : v.getLsbD 1 <;> cases he : s.err <;>
    simp only [writeStatus, acknowledge, setSchedule, h1, h2, he, Bool.false_eq_true, ↓reduceIte]

theorem setBnWord_setSchedule (s : State) (es : List Event) (d : BnSel) (i : Nat) (v : Word) :
    setBnWord (setSchedule s es) d i v = setSchedule (setBnWord s d i v) es := by
  cases d <;> rfl

theorem bufWritable_setSchedule (s : State) (es : List Event) (b : Buf) :
    bufWritable (setSchedule s es) b = bufWritable s b := by
  cases b <;> rfl

/-- A write's outcome does not depend on the schedule, which it keeps. -/
theorem busWrite_setSchedule (s : State) (es : List Event) (addr : BitVec 19) (width : Width) (v : Word) :
    busWrite (setSchedule s es) addr width v =
      (busWrite s addr width v).map fun t => setSchedule t es := by
  unfold busWrite
  cases target addr width with
  | none => rfl
  | some tg =>
    cases tg with
    | reg r =>
      cases r <;> simp only [writeTarget, writeReg, writeCmd, writeStatus_setSchedule]
      all_goals first
        | rfl
        | (rw [apply_ite (Option.map fun t => setSchedule t es)]; rfl)
    | bn d i =>
      simp only [writeTarget, setBnWord_setSchedule]
      rw [apply_ite (Option.map fun t => setSchedule t es)]
      rfl
    | buf b q =>
      simp only [writeTarget, bufWritable_setSchedule]
      rw [apply_ite (Option.map fun t => setSchedule t es)]
      rfl

/-- A read's answer does not depend on the schedule. -/
theorem busRead_setSchedule (s : State) (es : List Event) (addr : BitVec 19) (width : Width) :
    busRead (setSchedule s es) addr width = busRead s addr width := by
  unfold busRead
  cases target addr width with
  | none => rfl
  | some tg =>
    cases tg with
    | reg r => cases r <;> rfl
    | bn d i => cases d <;> rfl
    | buf b q => rfl

/-! ## The host's events -/

theorem step_nil {s : State} (h : s.schedule = []) : step s = engineTurn s := by
  unfold step
  rw [h]

theorem step_cons {s : State} {e : Event} {rest : List Event} (h : s.schedule = e :: rest) :
    step s = perform (setSchedule s rest) e := by
  unfold step
  rw [h]

/-- Every byte after a host write to a buffer word (R67, R68): its bytes inside the buffer, the old ones
elsewhere. -/
theorem readByte_storeWord (s : State) (b : Buf) (q : Nat) (v : Word) (h : 4 * q < bufSize b) (a : Nat) :
    readByte (storeWord s b q v) a =
      if bufBase b + 4 * q ≤ a ∧ a < bufBase b + 4 * q + 4 ∧ a < bufBase b + bufSize b then
        wordByte v (a - (bufBase b + 4 * q))
      else readByte s a := by
  rw [readByte_patch (s := s) (t := storeWord s b q v) rfl rfl]
  by_cases hc : bufBase b + 4 * q ≤ a ∧ a < bufBase b + 4 * q + 4 ∧ a < bufBase b + bufSize b
  · rw [if_pos hc, if_pos]
    exact ⟨hc.1, by omega⟩
  · rw [if_neg hc, if_neg]
    omega

end Sys2Proof.Machine
end

