-- ==== Sys2Proof/Laws/Encoding.lean ====
section
/-!
SUPPORT. The fields of a command word put together from its fields (30_encoding.md R91), and the rows of the
opcode map as facts about words.
-/

namespace Sys2Proof

/-- Op is read back (R91). -/
theorem opField_packFields (imm : BitVec 16) (s d : BitVec 1) (op : BitVec 8) :
    opField (packFields imm s d op) = op := by
  apply BitVec.eq_of_getLsbD_eq
  intro i hi
  simp only [opField, packFields, BitVec.getLsbD_extractLsb', BitVec.getLsbD_append]
  simp [hi]

/-- D is read back (R91). -/
theorem dField_packFields (imm : BitVec 16) (s d : BitVec 1) (op : BitVec 8) :
    dField (packFields imm s d op) = d := by
  apply BitVec.eq_of_getLsbD_eq
  intro i hi
  simp only [dField, packFields, BitVec.getLsbD_extractLsb', BitVec.getLsbD_append]
  obtain rfl : i = 0 := by omega
  simp

/-- S is read back (R91). -/
theorem sField_packFields (imm : BitVec 16) (s d : BitVec 1) (op : BitVec 8) :
    sField (packFields imm s d op) = s := by
  apply BitVec.eq_of_getLsbD_eq
  intro i hi
  simp only [sField, packFields, BitVec.getLsbD_extractLsb', BitVec.getLsbD_append]
  obtain rfl : i = 0 := by omega
  simp

/-- Imm16 is read back (R91). -/
theorem immField_packFields (imm : BitVec 16) (s d : BitVec 1) (op : BitVec 8) :
    immField (packFields imm s d op) = imm := by
  apply BitVec.eq_of_getLsbD_eq
  intro i hi
  simp only [immField, packFields, BitVec.getLsbD_extractLsb', BitVec.getLsbD_append]
  rw [if_neg (by omega), if_neg (by omega), if_neg (by omega), if_neg (by omega),
    show 16 + i - 8 - 1 - 1 - 6 = i by omega]
  simp [hi]

/-- A word the decoder takes belongs to the row of its op field and matches it (R96). -/
theorem decode_eq_ok {c : Word} {i : Instr} (h : decode c = .ok i) :
    ∃ r ∈ opRows, r.op = opField c ∧ c &&& r.mask = r.pattern ∧ r.build c = i := by
  unfold decode at h
  split at h
  · simp at h
  · next r hr =>
    split at h
    · next hm =>
      exact ⟨r, List.mem_of_find?_eq_some hr, by simpa using List.find?_some hr, hm, by simpa using h⟩
    · simp at h

end Sys2Proof
end

