-- ==== Sys2Proof/Laws/Reads.lean ====
section
/-!
SUPPORT. Which updates leave memory alone, as one simp lemma each, and the scalar registers after a write of
a value that fits them.
-/

namespace Sys2Proof.Machine

/-! ## Bytes of memory under updates that do not write memory -/

@[simp] theorem readByte_complete (s : State) (a : Nat) : readByte (complete s) a = readByte s a :=
  readByte_congr (complete_mem s) (complete_resets s) a

@[simp] theorem readByte_faultEntry (s : State) (c : ErrCode) (w : Word) (a : Nat) :
    readByte (faultEntry s c w) a = readByte s a :=
  readByte_congr (faultEntry_mem s c w) (faultEntry_resets s c w) a

@[simp] theorem readByte_accept (s : State) (v : Word) (a : Nat) : readByte (accept s v) a = readByte s a :=
  readByte_congr (accept_mem s v) (accept_resets s v) a

@[simp] theorem readByte_writeBn (s : State) (d : BnSel) (xs : List Word) (a : Nat) :
    readByte (writeBn s d xs) a = readByte s a :=
  readByte_congr (writeBn_mem s d xs) (writeBn_resets s d xs) a

@[simp] theorem readByte_setBnWord (s : State) (d : BnSel) (i : Nat) (v : Word) (a : Nat) :
    readByte (setBnWord s d i v) a = readByte s a :=
  readByte_congr (setBnWord_mem s d i v) (setBnWord_resets s d i v) a

@[simp] theorem readByte_setRem (s : State) (r : Nat) (a : Nat) : readByte (setRem s r) a = readByte s a :=
  readByte_congr (setRem_mem s r) (setRem_resets s r) a

@[simp] theorem readByte_setPlen (s : State) (n : Nat) (a : Nat) : readByte (setPlen s n) a = readByte s a :=
  readByte_congr (setPlen_mem s n) (setPlen_resets s n) a

@[simp] theorem readByte_setPklen (s : State) (n : Nat) (a : Nat) :
    readByte (setPklen s n) a = readByte s a :=
  readByte_congr (setPklen_mem s n) (setPklen_resets s n) a

@[simp] theorem readByte_setWeight (s : State) (n : Nat) (a : Nat) :
    readByte (setWeight s n) a = readByte s a :=
  readByte_congr (setWeight_mem s n) (setWeight_resets s n) a

@[simp] theorem readByte_setSchedule (s : State) (es : List Event) (a : Nat) :
    readByte (setSchedule s es) a = readByte s a :=
  readByte_congr (setSchedule_mem s es) (setSchedule_resets s es) a

@[simp] theorem readByte_answer (s : State) (r : Reply) (a : Nat) : readByte (answer s r) a = readByte s a :=
  readByte_congr (answer_mem s r) (answer_resets s r) a

@[simp] theorem readByte_writeCtrl (s : State) (v : Word) (a : Nat) :
    readByte (writeCtrl s v) a = readByte s a :=
  readByte_congr (writeCtrl_mem s v) (writeCtrl_resets s v) a

@[simp] theorem readByte_writeStatus (s : State) (v : Word) (a : Nat) :
    readByte (writeStatus s v) a = readByte s a :=
  readByte_congr (writeStatus_mem s v) (writeStatus_resets s v) a

/-- ZEROIZE: the background in the cleared buffers, the old bytes elsewhere (R173). -/
theorem readByte_of_clearBufs {s t : State} {bs : List Buf} (hm : t.mem = s.mem.clearBufs bs)
    (hr : t.resets = s.resets) (a : Nat) :
    readByte t a =
      if ∃ b ∈ bs, bufBase b ≤ a ∧ a < bufBase b + bufSize b then
        (background a).getD (Config.hmReset s.resets (a - bufBase .hm))
      else readByte s a := by
  unfold readByte
  rw [hm, hr, Memory.get_clearBufs]
  by_cases h : ∃ b ∈ bs, bufBase b ≤ a ∧ a < bufBase b + bufSize b
  · rw [if_pos h, if_pos h]
    cases background a <;> rfl
  · rw [if_neg h, if_neg h]

/-- A byte of a buffer after a block was written to the same buffer from its start. -/
theorem bufByte_writeBuf_self (s : State) (b : Buf) (n : Nat) (f : Nat → Byte) (o : Nat) :
    bufByte (writeBuf s b n f) b o = if o < n then f o else bufByte s b o := by
  unfold bufByte
  rw [readByte_writeBuf]
  by_cases h : o < n
  · rw [if_pos ⟨by omega, by omega⟩, if_pos h, show bufBase b + o - bufBase b = o by omega]
  · rw [if_neg (by omega), if_neg h]

/-- Buffers do not overlap (R66): a byte of one buffer is not in a block at the start of another. -/
theorem bufByte_writeBuf_other (s : State) {b c : Buf} (hbc : b ≠ c) {n : Nat} (hn : n ≤ bufSize b)
    (f : Nat → Byte) {o : Nat} (ho : o < bufSize c) : bufByte (writeBuf s b n f) c o = bufByte s c o := by
  unfold bufByte
  rw [readByte_writeBuf, if_neg]
  revert hn ho hbc
  cases b <;> cases c <;> simp only [bufBase, bufSize, ne_eq, not_true_eq_false, reduceCtorEq,
    not_false_eq_true, true_implies, false_implies] <;> omega

/-! ## Scalar registers -/

theorem setRem_rem_toNat (s : State) {r : Nat} (h : r < 4) : (setRem s r).rem.toNat = r := by
  simp only [setRem, BitVec.toNat_ofNat]
  exact Nat.mod_eq_of_lt h

theorem setPlen_plen_toNat (s : State) {n : Nat} (h : n < 4096) : (setPlen s n).plen.toNat = n := by
  simp only [setPlen, BitVec.toNat_ofNat]
  exact Nat.mod_eq_of_lt h

theorem setPklen_pklen_toNat (s : State) {n : Nat} (h : n < 8192) : (setPklen s n).pklen.toNat = n := by
  simp only [setPklen, BitVec.toNat_ofNat]
  exact Nat.mod_eq_of_lt h

theorem setWeight_weight_toNat (s : State) {n : Nat} (h : n < 4096) :
    (setWeight s n).weight.toNat = n := by
  simp only [setWeight, BitVec.toNat_ofNat]
  exact Nat.mod_eq_of_lt h

/-- The lengths after `BN[d] <- (n', x)` stay within the capacities (R33). -/
theorem writeBn_lens (s : State) (d : BnSel) (xs : List Word) (h : xs.length ≤ bnCap d)
    (hA : s.lenA.toNat ≤ 32) (hB : s.lenB.toNat ≤ 16) :
    (writeBn s d xs).lenA.toNat ≤ 32 ∧ (writeBn s d xs).lenB.toNat ≤ 16 := by
  cases d
  · have : xs.length ≤ 32 := h
    exact ⟨by simp only [writeBn, BitVec.toNat_ofNat]; omega, hB⟩
  · have : xs.length ≤ 16 := h
    exact ⟨hA, by simp only [writeBn, BitVec.toNat_ofNat]; omega⟩

end Sys2Proof.Machine
end

