-- ==== Sys2Proof/Laws/Exec.lean ====
section
/-!
SUPPORT. What a command can do, said once: `exec_cases` is the inversion lemma of `exec`, with every write a
command makes; the lemmas before it say the same of the shared searches and results.
-/

namespace Sys2Proof.Machine

/-! ## The arms of `exec` -/

theorem exec_nop (s : State) : exec .nop s = execNop s := rfl
theorem exec_zeroize (s : State) : exec .zeroize s = execZeroize s := rfl
theorem exec_piota (s : State) : exec .piota s = execPiota s := rfl
theorem exec_pshuf (s : State) : exec .pshuf s = execPshuf s := rfl
theorem exec_papply (s : State) : exec .papply s = execPapply s := rfl
theorem exec_ppack (s : State) : exec .ppack s = execPpack s := rfl
theorem exec_punpk (s : State) : exec .punpk s = execPunpk s := rfl
theorem exec_pwt (v : VecSel) (s : State) : exec (.pwt v) s = execPwt v s := rfl
theorem exec_syn (s : State) : exec .syn s = execSyn s := rfl
theorem exec_bnLdh (d : BnSel) (s : State) : exec (.bnLdh d) s = execBnLdh d s := rfl
theorem exec_bnMulw (d : BnSel) (s : State) : exec (.bnMulw d) s = execBnMulw d s := rfl
theorem exec_bnDiv3 (d src : BnSel) (s : State) : exec (.bnDiv3 d src) s = execBnDiv3 d src s := rfl
theorem exec_bnCopy (d src : BnSel) (s : State) : exec (.bnCopy d src) s = execBnCopy d src s := rfl
theorem exec_bnShrw (d : BnSel) (k : Nat) (s : State) : exec (.bnShrw d k) s = execBnShrw d k s := rfl
theorem exec_chal (s : State) : exec .chal s = execChal s := rfl

/-! ## Shared results -/

/-- A big-integer result completes when it fits and faults when it does not (R141, R142). -/
theorem finishBn_cases (s : State) (d : BnSel) (xs : List Word) :
    (xs.length ≤ bnCap d ∧ finishBn s d xs = .next (complete (writeBn s d xs))) ∨
    (bnCap d < xs.length ∧
      finishBn s d xs = .next (faultEntry s .cap (BitVec.ofNat 32 xs.length))) := by
  unfold finishBn
  split
  · next h => exact .inr ⟨h, rfl⟩
  · next h => exact .inl ⟨Nat.le_of_not_lt h, rfl⟩

/-- The search for an index out of range finds none exactly when all are in range (R115, R116). -/
theorem firstIndexFrom_eq_none {s : State} {bound : Nat} :
    firstIndexFrom s bound = none ↔ ∀ i < s.plen.toNat, (sigAt s i).toNat < bound := by
  unfold firstIndexFrom plenVal
  simp only [List.find?_eq_none, List.mem_range, decide_eq_true_eq, Nat.not_le]

/-- The index the search finds is the lowest one out of range (R181). -/
theorem firstIndexFrom_eq_some {s : State} {bound i : Nat} :
    firstIndexFrom s bound = some i ↔
      i < s.plen.toNat ∧ bound ≤ (sigAt s i).toNat ∧ ∀ j < i, (sigAt s j).toNat < bound := by
  unfold firstIndexFrom plenVal
  rw [List.find?_range_eq_some]
  simp only [decide_eq_true_eq, List.mem_range, Bool.not_eq_true', decide_eq_false_iff_not, Nat.not_le]
  exact ⟨fun ⟨h1, h2, h3⟩ => ⟨h2, h1, h3⟩, fun ⟨h1, h2, h3⟩ => ⟨h2, h1, h3⟩⟩

/-- The hash has 16 words (R72), so its integer fits both registers. -/
theorem hashWords_length_le (s : State) : (hashWords s).length ≤ 16 := by
  unfold hashWords
  simpa using stripZeros_length_le ((List.range 16).map (hashWord s))

/-- Shifting right never lengthens (R149). -/
theorem shrWords_length_le (k : Nat) (ws : List Word) : (shrWords k ws).length ≤ ws.length := by
  have h := stripZeros_length_le (ws.drop k)
  unfold shrWords
  rw [List.length_drop] at h
  omega

/-- A product has at most one word more (R144). -/
theorem mulWords_length_le (m : Word) (ws : List Word) : (mulWords m ws).length ≤ ws.length + 1 := by
  rw [mulWords_length]
  split
  · omega
  · split <;> omega

/-- A quotient is not longer than its dividend (R146). -/
theorem quotWords_length_le (ws : List Word) : (quotWords ws).length ≤ ws.length := by
  rw [quotWords_length]
  unfold quotLen
  split
  · omega
  · split <;> omega

/-- The scaled hash has at most 27 words before its shift (R162). -/
theorem chalWords_length_le (s : State) : (chalWords s).length ≤ 32 := by
  have iter : ∀ n ws, (Nat.iterate (mulWords Config.pow20) n ws).length ≤ ws.length + n := by
    intro n
    induction n with
    | zero => intro ws; exact Nat.le_refl _
    | succ n ih =>
      intro ws
      have h1 := ih (mulWords Config.pow20 ws)
      have h2 := mulWords_length_le Config.pow20 ws
      rw [Function.iterate_succ_apply]
      omega
  have h1 := iter 10 (hashWords s)
  have h2 := hashWords_length_le s
  have h3 := mulWords_length_le Config.pow19 (Nat.iterate (mulWords Config.pow20) 10 (hashWords s))
  have h4 := shrWords_length_le 16 (timesPow219 (hashWords s))
  unfold chalWords
  unfold timesPow219 at h4 ⊢
  omega

theorem quotLoop_length_le (n : Nat) (ws : List Word) : (quotLoop n ws).length ≤ ws.length := by
  induction n generalizing ws with
  | zero => exact Nat.le_refl _
  | succ n ih =>
    cases ws with
    | nil => exact Nat.le_refl _
    | cons w ws =>
      have h1 := ih (quotWords (w :: ws))
      have h2 := quotWords_length_le (w :: ws)
      unfold quotLoop
      omega

/-- A weight is at most N (R36, R119). -/
theorem hammingWeight_le (s : State) (b : Buf) : hammingWeight s b ≤ 2896 := by
  have h := List.countP_le_length (p := fun i => bufBit s b i) (l := List.range Config.codeLength)
  rw [List.length_range] at h
  exact h

/-- Every remainder CHAL records is 0, 1 or 2 (R47, R163). -/
theorem digitLoop_lt (fuel : Nat) (ws : List Word) : ∀ r ∈ digitLoop fuel ws, r < 3 := by
  induction fuel generalizing ws with
  | zero => simp [digitLoop]
  | succ n ih =>
    cases ws with
    | nil => simp [digitLoop]
    | cons w ws =>
      intro r hr
      simp only [digitLoop, List.mem_cons] at hr
      rcases hr with rfl | hr
      · exact divLoop_rem_lt _
      · exact ih _ r hr

/-- A byte CHAL writes to CH is a ternary digit (R47). -/
theorem chalByte_lt (s : State) (i : Nat) : (chalByte s i).toNat < 3 := by
  unfold chalByte
  have h : (chalDigits s).getD (Config.delta - 1 - i) 0 < 3 := by
    rw [List.getD_eq_getElem?_getD]
    cases hh : (chalDigits s)[Config.delta - 1 - i]? with
    | none => simp
    | some r => exact digitLoop_lt _ _ r (List.mem_of_getElem? hh)
  rw [BitVec.toNat_ofNat]
  exact Nat.lt_of_le_of_lt (Nat.mod_le _ _) h

/-- REM after CHAL is 0, 1 or 2 if it was before (R32, R163). -/
theorem chalRem_lt {s : State} (h : s.rem.toNat < 3) : chalRem s < 3 := by
  unfold chalRem
  split
  · exact h
  · next r hr => exact digitLoop_lt _ _ r (List.mem_of_getLast? hr)

/-! ## The inversion lemma -/

/-- All that a command can do (R170, R183): fault in the state before it, or complete with the writes of its
rule. -/
theorem exec_cases (i : Instr) (s : State) :
    (∃ code info, exec i s = .next (faultEntry s code info)) ∨
    ∃ w, exec i s = .next (complete w) ∧
      ((i = .nop ∧ w = s) ∨
       (i = .zeroize ∧ w = zeroized s) ∨
       ((i = .piota ∨ i = .pshuf) ∧ ∃ f, w = writeSig s s.plen.toNat f) ∨
       (i = .papply ∧ ∃ g, w = writeBits s .vb s.plen.toNat g) ∨
       (i = .ppack ∧ w = setPklen (writeBuf s .pk (3 * (s.plen.toNat / 2)) (packedByte s))
          (3 * s.plen.toNat / 2)) ∨
       (i = .punpk ∧ w = setPlen (writeSig s (2 * (s.pklen.toNat / 3)) (unpackedIndex s))
          (2 * s.pklen.toNat / 3)) ∨
       (∃ v, i = .pwt v ∧ w = setWeight s (hammingWeight s (vecBuf v))) ∨
       (i = .syn ∧ s.mlock = true ∧ w = writeBits s .sy 1448 (synBit s)) ∨
       (∃ d xs, (i = .bnLdh d ∨ i = .bnMulw d ∨ (∃ src, i = .bnCopy d src) ∨ ∃ k, i = .bnShrw d k) ∧
          xs.length ≤ bnCap d ∧ w = writeBn s d xs) ∨
       (∃ d src, i = .bnDiv3 d src ∧ (quotWords (bnWords s src)).length ≤ bnCap d ∧
          w = setRem (writeBn s d (quotWords (bnWords s src))) (remOf (bnWords s src))) ∨
       (i = .chal ∧ w = setRem (writeBn (writeBuf s .ch 219 (chalByte s)) .bna
          (quotLoop 219 (chalWords s))) (chalRem s))) := by
  cases i with
  | nop => exact .inr ⟨_, rfl, by simp⟩
  | zeroize => exact .inr ⟨_, rfl, by simp⟩
  | piota => exact .inr ⟨_, rfl, .inr (.inr (.inl ⟨.inl rfl, _, rfl⟩))⟩
  | pshuf => exact .inr ⟨_, rfl, .inr (.inr (.inl ⟨.inr rfl, _, rfl⟩))⟩
  | papply =>
    rw [exec_papply]
    unfold execPapply
    split
    · exact .inl ⟨_, _, rfl⟩
    · exact .inr ⟨_, rfl, .inr (.inr (.inr (.inl ⟨rfl, _, rfl⟩)))⟩
  | ppack =>
    rw [exec_ppack]
    unfold execPpack
    split
    · exact .inl ⟨_, _, rfl⟩
    · split
      · exact .inl ⟨_, _, rfl⟩
      · exact .inr ⟨_, rfl, .inr (.inr (.inr (.inr (.inl ⟨rfl, rfl⟩))))⟩
  | punpk =>
    rw [exec_punpk]
    unfold execPunpk
    split
    · exact .inr ⟨_, rfl, .inr (.inr (.inr (.inr (.inr (.inl ⟨rfl, rfl⟩)))))⟩
    · exact .inl ⟨_, _, rfl⟩
  | pwt v =>
    exact .inr ⟨_, rfl, .inr (.inr (.inr (.inr (.inr (.inr (.inl ⟨v, rfl, rfl⟩))))))⟩
  | syn =>
    rw [exec_syn]
    unfold execSyn
    split
    · next h =>
      exact .inr ⟨_, rfl, .inr (.inr (.inr (.inr (.inr (.inr (.inr (.inl ⟨rfl, h, rfl⟩)))))))⟩
    · exact .inl ⟨_, _, rfl⟩
  | bnLdh d =>
    refine .inr ⟨_, rfl, .inr (.inr (.inr (.inr (.inr (.inr (.inr (.inr (.inl
      ⟨d, _, .inl rfl, ?_, rfl⟩))))))))⟩
    have := hashWords_length_le s
    cases d <;> simp only [bnCap_bna, bnCap_bnb] <;> omega
  | bnMulw d =>
    rw [exec_bnMulw]
    unfold execBnMulw
    rcases finishBn_cases s d (mulWords s.opw (bnWords s d)) with ⟨h, e⟩ | ⟨h, e⟩
    · exact .inr ⟨_, e, .inr (.inr (.inr (.inr (.inr (.inr (.inr (.inr (.inl
        ⟨d, _, .inr (.inl rfl), h, rfl⟩))))))))⟩
    · exact .inl ⟨_, _, e⟩
  | bnDiv3 d src =>
    rw [exec_bnDiv3]
    unfold execBnDiv3
    dsimp only
    split
    · exact .inl ⟨_, _, rfl⟩
    · next h =>
      exact .inr ⟨_, rfl, .inr (.inr (.inr (.inr (.inr (.inr (.inr (.inr (.inr (.inl
        ⟨d, src, rfl, Nat.le_of_not_lt h, rfl⟩)))))))))⟩
  | bnCopy d src =>
    rw [exec_bnCopy]
    unfold execBnCopy
    rcases finishBn_cases s d (bnWords s src) with ⟨h, e⟩ | ⟨h, e⟩
    · exact .inr ⟨_, e, .inr (.inr (.inr (.inr (.inr (.inr (.inr (.inr (.inl
        ⟨d, _, .inr (.inr (.inl ⟨src, rfl⟩)), h, rfl⟩))))))))⟩
    · exact .inl ⟨_, _, e⟩
  | bnShrw d k =>
    refine .inr ⟨_, rfl, .inr (.inr (.inr (.inr (.inr (.inr (.inr (.inr (.inl
      ⟨d, _, .inr (.inr (.inr ⟨k, rfl⟩)), ?_, rfl⟩))))))))⟩
    have h1 := shrWords_length_le k (bnWords s d)
    have h2 := bnWords_length_le s d
    omega
  | chal =>
    exact .inr ⟨_, rfl, .inr (.inr (.inr (.inr (.inr (.inr (.inr (.inr (.inr (.inr ⟨rfl, rfl⟩)))))))))⟩

end Sys2Proof.Machine
end

