-- ==== Sys2Proof/Laws/PerInstr.lean ====
section
/-!
SUPPORT. One family of facts stated per instruction: the op field of a command's word is the op value of its
row (30_encoding.md R91, R93).
-/

namespace Sys2Proof.Laws.OpcodeField

/-- The op field of the instruction's word is the op value of its row. -/
def Statement (i : Instr) : Prop := opField (encode i) = opcode i

theorem nop : Statement .nop := opField_packFields _ _ _ _

theorem zeroize : Statement .zeroize := opField_packFields _ _ _ _

theorem piota : Statement .piota := opField_packFields _ _ _ _

theorem pshuf : Statement .pshuf := opField_packFields _ _ _ _

theorem papply : Statement .papply := opField_packFields _ _ _ _

theorem ppack : Statement .ppack := opField_packFields _ _ _ _

theorem punpk : Statement .punpk := opField_packFields _ _ _ _

theorem pwt (s : VecSel) : Statement (.pwt s) := opField_packFields _ _ _ _

theorem syn : Statement .syn := opField_packFields _ _ _ _

theorem bnLdh (d : BnSel) : Statement (.bnLdh d) := opField_packFields _ _ _ _

theorem bnMulw (d : BnSel) : Statement (.bnMulw d) := opField_packFields _ _ _ _

theorem bnDiv3 (d s : BnSel) : Statement (.bnDiv3 d s) := opField_packFields _ _ _ _

theorem bnCopy (d s : BnSel) : Statement (.bnCopy d s) := opField_packFields _ _ _ _

theorem bnShrw (d : BnSel) (k : Nat) : Statement (.bnShrw d k) := opField_packFields _ _ _ _

theorem chal : Statement .chal := opField_packFields _ _ _ _

end Sys2Proof.Laws.OpcodeField
end

