-- ==== Sys2Proof/Laws/Perm.lean ====
section
/-!
SUPPORT. The parts of the permutation, packer and syndrome commands, each said once: sorting, the packed
bytes and the unpacked indices as numbers, and the parity of a row product.
-/

namespace Sys2Proof.Machine

/-- Inserting a key keeps the keys. -/
theorem insertKey_perm (k) (l : List Nat) : (insertKey k l).Perm (k :: l) := by
  induction l with
  | nil => exact .refl _
  | cons x xs ih =>
    unfold insertKey
    split
    · exact .refl _
    · exact (ih.cons x).trans (.swap _ _ _)

/-- Sorting keeps the keys (R114). -/
theorem sortKeys_perm (l : List Nat) : (sortKeys l).Perm l := by
  induction l with
  | nil => exact .refl _
  | cons x xs ih => exact (insertKey_perm x _).trans (ih.cons x)

/-- Inserting a key keeps an ascending list ascending. -/
theorem insertKey_sorted (k) (l : List Nat) (h : l.Pairwise (· ≤ ·)) :
    (insertKey k l).Pairwise (· ≤ ·) := by
  induction l with
  | nil => simp [insertKey]
  | cons x xs ih =>
    unfold insertKey
    rw [List.pairwise_cons] at h
    split
    · next hk =>
      refine List.pairwise_cons.2 ⟨?_, List.pairwise_cons.2 h⟩
      intro y hy
      rcases List.mem_cons.1 hy with rfl | hy
      · exact hk
      · exact le_trans hk (h.1 y hy)
    · next hk =>
      refine List.pairwise_cons.2 ⟨?_, ih h.2⟩
      intro y hy
      rcases List.mem_cons.1 ((insertKey_perm k xs).mem_iff.1 hy) with rfl | hy
      · omega
      · exact h.1 y hy

/-- Sorted keys are ascending (R114). -/
theorem sortKeys_sorted (l : List Nat) : (sortKeys l).Pairwise (· ≤ ·) := by
  induction l with
  | nil => simp [sortKeys]
  | cons x xs ih => exact insertKey_sorted x _ ih

/-- The first packed byte of a pair of indices (R116). -/
theorem packedByte_zero (s : State) (u : Nat) :
    (packedByte s (3 * u)).toNat = (sigAt s (2 * u)).toNat / 16 % 256 := by
  unfold packedByte
  simp only [show 3 * u / 3 = u by omega, show 3 * u % 3 = 0 by omega]
  simp [Nat.shiftRight_eq_div_pow]

/-- The second packed byte of a pair of indices (R116). -/
theorem packedByte_one (s : State) (u : Nat) (h : (sigAt s (2 * u + 1)).toNat < 4096) :
    (packedByte s (3 * u + 1)).toNat =
      (sigAt s (2 * u)).toNat % 16 * 16 + (sigAt s (2 * u + 1)).toNat / 256 := by
  unfold packedByte
  simp only [show (3 * u + 1) / 3 = u by omega, show (3 * u + 1) % 3 = 1 by omega]
  simp only [BitVec.toNat_setWidth, BitVec.toNat_or, BitVec.toNat_shiftLeft, BitVec.toNat_ushiftRight,
    Nat.shiftLeft_eq, Nat.shiftRight_eq_div_pow]
  generalize (sigAt s (2 * u)).toNat = x at *
  generalize (sigAt s (2 * u + 1)).toNat = y at *
  have hy : y / 2 ^ 8 < 2 ^ 4 := by omega
  have : x * 2 ^ 4 % 2 ^ 16 = 2 ^ 4 * (x % 2 ^ 12) := by omega
  rw [this, ← Nat.two_pow_add_eq_or_of_lt hy]
  omega

/-- The third packed byte of a pair of indices (R116). -/
theorem packedByte_two (s : State) (u : Nat) :
    (packedByte s (3 * u + 2)).toNat = (sigAt s (2 * u + 1)).toNat % 256 := by
  unfold packedByte
  simp only [show (3 * u + 2) / 3 = u by omega, show (3 * u + 2) % 3 = 2 by omega]
  simp

/-- The even element of an unpacked pair (R118). -/
theorem unpackedIndex_even (s : State) (u : Nat) :
    (unpackedIndex s (2 * u)).toNat =
      (bufByte s .pk (3 * u)).toNat * 16 + (bufByte s .pk (3 * u + 1)).toNat / 16 := by
  unfold unpackedIndex
  simp only [show 2 * u / 2 = u by omega, show 2 * u % 2 = 0 by omega]
  simp only [BitVec.toNat_setWidth, BitVec.toNat_or, BitVec.toNat_shiftLeft, BitVec.toNat_ushiftRight,
    Nat.shiftLeft_eq, Nat.shiftRight_eq_div_pow]
  have hx := (bufByte s .pk (3 * u)).isLt
  have hy := (bufByte s .pk (3 * u + 1)).isLt
  generalize (bufByte s .pk (3 * u)).toNat = x at *
  generalize (bufByte s .pk (3 * u + 1)).toNat = y at *
  have h4 : y % 2 ^ 16 / 2 ^ 4 < 2 ^ 4 := by omega
  have : x % 2 ^ 16 * 2 ^ 4 % 2 ^ 16 = 2 ^ 4 * x := by omega
  rw [this, ← Nat.two_pow_add_eq_or_of_lt h4]; omega

/-- The odd element of an unpacked pair (R118). -/
theorem unpackedIndex_odd (s : State) (u : Nat) :
    (unpackedIndex s (2 * u + 1)).toNat =
      (bufByte s .pk (3 * u + 1)).toNat % 16 * 256 + (bufByte s .pk (3 * u + 2)).toNat := by
  unfold unpackedIndex
  simp only [show (2 * u + 1) / 2 = u by omega, show (2 * u + 1) % 2 = 1 by omega]
  simp only [BitVec.toNat_setWidth, BitVec.toNat_or, BitVec.toNat_and, BitVec.toNat_shiftLeft,
    Nat.shiftLeft_eq]
  have hx := (bufByte s .pk (3 * u + 1)).isLt
  have hy := (bufByte s .pk (3 * u + 2)).isLt
  generalize (bufByte s .pk (3 * u + 1)).toNat = x at *
  generalize (bufByte s .pk (3 * u + 2)).toNat = y at *
  have h15 : x % 2 ^ 16 &&& (BitVec.toNat (15 : BitVec 16)) = x % 16 := by
    rw [show (BitVec.toNat (15 : BitVec 16)) = 2 ^ 4 - 1 by rfl, Nat.and_two_pow_sub_one_eq_mod]; omega
  rw [h15]
  have h4 : y % 2 ^ 16 < 2 ^ 8 := by omega
  have : x % 16 * 2 ^ 8 % 2 ^ 16 = 2 ^ 8 * (x % 16) := by omega
  rw [this, ← Nat.two_pow_add_eq_or_of_lt h4]; omega

/-- A fold of exclusive ors is the parity of the set terms (R131). -/
theorem foldl_xor_eq (l : List Nat) (f : Nat → Bool) (b : Bool) :
    l.foldl (fun acc j => acc ^^ f j) b = (b ^^ decide (l.countP f % 2 = 1)) := by
  induction l generalizing b with
  | nil => simp
  | cons x xs ih =>
    rw [List.foldl_cons, ih, List.countP_cons]
    rcases Nat.mod_two_eq_zero_or_one (List.countP f xs) with h | h <;> cases hf : f x <;> cases b <;>
      simp [h, Nat.add_mod]

end Sys2Proof.Machine
end

