-- ==== Sys2Proof/Laws/Values.lean ====
section
/-!
SUPPORT. The big-integer operations at the level of values and registers (43_bignum.md, 44_challenge.md):
normal form of products and quotients, the value of the loaded and scaled hash, and registers after a write.
-/

namespace Sys2Proof.Machine

/-- Normal words by value: the value needs all of them (R38). -/
theorem normalWords_iff (ws : List Word) :
    NormalWords ws ↔ ws = [] ∨ 2 ^ (32 * (ws.length - 1)) ≤ wordsVal ws := by
  rcases List.eq_nil_or_concat ws with rfl | ⟨xs, x, rfl⟩
  · simp [NormalWords]
  · have hlt := wordsVal_lt xs
    rw [List.concat_eq_append, wordsVal_append]
    simp only [List.length_append, List.length_singleton, Nat.add_sub_cancel]
    constructor
    · intro h
      have hx : x ≠ 0 := h x (by simp)
      have hx' : 1 ≤ x.toNat := by
        by_contra hc
        exact hx (BitVec.eq_of_toNat_eq (by simp; omega))
      right
      simp only [wordsVal]
      have hp : 0 < 2 ^ (32 * xs.length) := Nat.pow_pos (by omega)
      nlinarith
    · rintro (h | h)
      · simp at h
      · intro top ht
        simp at ht
        subst ht
        rintro rfl
        simp [wordsVal] at h
        omega

/-- A product of normal words is normal (R152). -/
theorem mulWords_normal (m : Word) (ws) (h : NormalWords ws) : NormalWords (mulWords m ws) := by
  rw [normalWords_iff] at h ⊢
  by_cases hm : m = 0
  · left; simp [mulWords, hm]
  · rcases h with rfl | h
    · left; simp [mulWords, mulLoop]
    · right
      rw [mulWords_val, mulWords_length, if_neg hm]
      have : 1 ≤ m.toNat := by
        by_contra hc
        exact hm (BitVec.eq_of_toNat_eq (by simp; omega))
      split
      · nlinarith
      · simp; omega

/-- A quotient of normal words is normal (R152). -/
theorem quotWords_normal (ws) (h : NormalWords ws) : NormalWords (quotWords ws) := by
  rcases List.eq_nil_or_concat ws with rfl | ⟨xs, x, rfl⟩
  · simp [normalWords_iff, quotWords, divLoop]
  · have hx : x ≠ 0 := h x (by simp)
    have hx' : 1 ≤ x.toNat := by
      by_contra hc
      exact hx (BitVec.eq_of_toNat_eq (by simp; omega))
    rw [normalWords_iff]
    rw [List.concat_eq_append]
    have hlen : (quotWords (xs ++ [x])).length = if x.toNat < 3 then xs.length else xs.length + 1 := by
      rw [quotWords_length]; simp [quotLen]
    have hv := quotWords_val (xs ++ [x])
    rw [wordsVal_append] at hv
    simp only [wordsVal] at hv
    by_cases h3 : x.toNat < 3
    · rw [if_pos h3] at hlen
      by_cases h0 : xs.length = 0
      · left; exact List.eq_nil_of_length_eq_zero (by omega)
      · right
        rw [hlen, hv]
        obtain ⟨n, hn⟩ : ∃ n, xs.length = n + 1 := ⟨xs.length - 1, by omega⟩
        rw [hn]
        have e : 2 ^ (32 * (n + 1)) = 2 ^ 32 * 2 ^ (32 * n) := by
          rw [Nat.mul_succ, Nat.add_comm, Nat.pow_add]
        rw [e]
        have : 2 ^ 32 * 2 ^ (32 * n) ≤ 2 ^ 32 * 2 ^ (32 * n) * (x.toNat + 2 ^ 32 * 0) :=
          Nat.le_mul_of_pos_right _ (by omega)
        simp only [Nat.add_sub_cancel]
        omega
    · rw [if_neg h3] at hlen
      right
      rw [hlen, hv]
      simp only [Nat.add_sub_cancel]
      have : 2 ^ (32 * xs.length) * 3 ≤ 2 ^ (32 * xs.length) * (x.toNat + 2 ^ 32 * 0) :=
        Nat.mul_le_mul_left _ (by omega)
      omega

/-- The sixteen words of the hash are the integer H (R72). -/
theorem wordsVal_hashWord (s : State) : wordsVal ((List.range 16).map (hashWord s)) = hashVal s := by
  have hw : ∀ i, (hashWord s i).toNat = (bufByte s .hash (60 - 4 * i)).toNat * 2 ^ 24 +
      (bufByte s .hash (61 - 4 * i)).toNat * 2 ^ 16 + (bufByte s .hash (62 - 4 * i)).toNat * 2 ^ 8 +
      (bufByte s .hash (63 - 4 * i)).toNat := by
    intro i
    unfold hashWord
    have h1 := (bufByte s .hash (60 - 4 * i)).isLt
    have h2 := (bufByte s .hash (61 - 4 * i)).isLt
    have h3 := (bufByte s .hash (62 - 4 * i)).isLt
    have h4 := (bufByte s .hash (63 - 4 * i)).isLt
    simp only [BitVec.toNat_append, Nat.shiftLeft_eq]
    rw [Nat.mul_comm _ (2 ^ 8), Nat.mul_comm _ (2 ^ 8), Nat.mul_comm _ (2 ^ 8),
      ← Nat.two_pow_add_eq_or_of_lt h2, ← Nat.two_pow_add_eq_or_of_lt h3, ← Nat.two_pow_add_eq_or_of_lt h4]
    omega
  unfold hashVal
  simp only [List.range, List.range.loop, List.map, wordsVal, hw]
  simp only [Finset.sum_range_succ, Finset.sum_range_zero]
  norm_num
  ring

/-- Loading the hash keeps its value (R143). -/
theorem hashWords_val (s) : wordsVal (hashWords s) = hashVal s := by
  unfold hashWords; rw [stripZeros_val, wordsVal_hashWord]

/-- Eleven word multiplications multiply by 3^219 (R162). -/
theorem timesPow219_val (ws) : wordsVal (timesPow219 ws) = wordsVal ws * 3 ^ 219 := by
  unfold timesPow219
  have it : ∀ n ws, wordsVal (Nat.iterate (mulWords Config.pow20) n ws) = wordsVal ws * (3 ^ 20) ^ n := by
    intro n
    induction n with
    | zero => intro ws; simp
    | succ n ih =>
      intro ws
      rw [Function.iterate_succ_apply, ih, mulWords_val]
      have : Config.pow20.toNat = 3 ^ 20 := by decide
      rw [this]; ring
  rw [mulWords_val, it]
  have : Config.pow19.toNat = 3 ^ 19 := by decide
  rw [this]; ring

/-- The words CHAL divides are H' (R162). -/
theorem chalWords_val (s) : wordsVal (chalWords s) = scaledHash s := by
  unfold chalWords shrWords scaledHash
  rw [stripZeros_val, wordsVal_drop, timesPow219_val, hashWords_val]

/-- The words CHAL divides are normal, so its loop stops at value zero (R163). -/
theorem chalWords_normal (s) : NormalWords (chalWords s) := stripZeros_normal _

/-- The remainder of division j is base-3 digit j (R164). -/
theorem digitLoop_getD (n : Nat) (ws : List Word) (h : NormalWords ws) (j : Nat) (hj : j < n) :
    (digitLoop n ws).getD j 0 = wordsVal ws / 3 ^ j % 3 := by
  induction n generalizing ws j with
  | zero => omega
  | succ n ih =>
    cases ws with
    | nil => simp [digitLoop, wordsVal]
    | cons w ws =>
      unfold digitLoop
      cases j with
      | zero => simp [remOf_eq]
      | succ j =>
        rw [List.getD_cons_succ, ih _ (quotWords_normal _ h) j (by omega), quotWords_val,
          Nat.div_div_eq_div_mul, Nat.pow_succ, Nat.mul_comm]

/-- The loop divides by 3 once per digit (R163). -/
theorem quotLoop_val (n : Nat) (ws : List Word) (h : NormalWords ws) :
    wordsVal (quotLoop n ws) = wordsVal ws / 3 ^ n ∧ NormalWords (quotLoop n ws) := by
  induction n generalizing ws with
  | zero => simpa [quotLoop] using h
  | succ n ih =>
    cases ws with
    | nil => exact ⟨by simp [quotLoop, wordsVal], h⟩
    | cons w ws =>
      unfold quotLoop
      have := ih _ (quotWords_normal _ h)
      rw [quotWords_val, Nat.div_div_eq_div_mul] at this
      rw [Nat.pow_succ, Nat.mul_comm]
      exact this

/-- H' is below 3^219, so 219 digits hold it (R162). -/
theorem scaledHash_lt (s) : scaledHash s < 3 ^ 219 := by
  unfold scaledHash
  have h1 := wordsVal_lt (hashWords s)
  rw [hashWords_val] at h1
  have h2 : 2 ^ (32 * (hashWords s).length) ≤ 2 ^ 512 := by
    have := hashWords_length_le s
    exact Nat.pow_le_pow_right (by omega) (by omega)
  rw [Nat.div_lt_iff_lt_mul (by positivity)]
  rw [Nat.mul_comm (3 ^ 219)]
  exact Nat.mul_lt_mul_of_pos_right (by omega) (by positivity)

/-- A completed big-integer write changes only its register and the completion flags. -/
theorem takeBn_writeBn (s : State) (d xs) :
    completed (takeBn s (complete (writeBn s d xs)) d) = complete (writeBn s d xs) := by cases d <;> rfl

/-- Completion leaves the big-integer registers alone. -/
theorem bnVal_complete (s d) : bnVal (complete s) d = bnVal s d := by cases d <;> rfl

/-- Completion leaves the lengths alone. -/
theorem bnLen_complete (s d) : bnLen (complete s) d = bnLen s d := by cases d <;> rfl

/-- Completion leaves the words alone. -/
theorem bnArray_complete (s d) : bnArray (complete s) d = bnArray s d := by cases d <;> rfl

/-- Words beyond the new length are zero (R141). -/
theorem clearBeyond_writeBn (s d xs) (h : xs.length ≤ bnCap d) : clearBeyond (writeBn s d xs) d := by
  intro i hi
  rw [bnLen_writeBn s d xs h] at hi
  rw [bnArray_writeBn s d xs h, List.getD_append_right _ _ _ _ hi]
  rw [List.getD_eq_getElem?_getD, List.getElem?_replicate]
  split <;> rfl

/-- Normal words give a normalised register (R38). -/
theorem normalised_writeBn (s d xs) (h : xs.length ≤ bnCap d) (hn : NormalWords xs) :
    normalised (writeBn s d xs) d := by
  unfold normalised
  rw [bnLen_writeBn s d xs h, bnArray_writeBn s d xs h]
  rcases List.eq_nil_or_concat xs with rfl | ⟨ys, y, rfl⟩
  · simp
  · right
    have := hn y (by simp)
    simp [List.getD_eq_getElem?_getD]
    exact this

/-- The value of a register that was written (R141). -/
theorem bnVal_writeBn (s d xs) (h : xs.length ≤ bnCap d) : bnVal (writeBn s d xs) d = wordsVal xs := by
  unfold bnVal; rw [bnWords_writeBn s d xs h]

/-- The quotient's length from the register's top word (R146). -/
theorem quotLen_bnWords (s src) (h : bnLen s src ≤ bnCap src) :
    quotLen (bnWords s src) = (if bnLen s src = 0 then 0
      else if ((bnArray s src).getD (bnLen s src - 1) 0).toNat < 3 then bnLen s src - 1
      else bnLen s src) := by
  have hwl := bnWords_length s src h
  have hal := bnArray_length s src
  unfold quotLen
  by_cases h0 : bnLen s src = 0
  · have : bnWords s src = [] := List.eq_nil_of_length_eq_zero (by omega)
    rw [this, h0]; rfl
  · have : (bnWords s src).getLast? = some ((bnArray s src).getD (bnLen s src - 1) 0) := by
      rw [List.getLast?_eq_getElem?, hwl]
      unfold bnWords
      rw [List.getElem?_take_of_lt (by omega), List.getD_eq_getElem?_getD]
      rw [List.getElem?_eq_getElem (by omega)]; rfl
    rw [this, if_neg h0, hwl]

/-- A normalised register has normal words (R38). -/
theorem normalWords_bnWords (s d) (h : bnLen s d ≤ bnCap d) (hn : normalised s d) :
    NormalWords (bnWords s d) := by
  intro top ht
  have hwl := bnWords_length s d h
  have hal := bnArray_length s d
  rw [List.getLast?_eq_getElem?, hwl] at ht
  rcases hn with h0 | hn
  · have : bnWords s d = [] := List.eq_nil_of_length_eq_zero (by omega)
    simp [this] at ht
  · by_cases h0 : bnLen s d = 0
    · have : bnWords s d = [] := List.eq_nil_of_length_eq_zero (by omega)
      simp [this] at ht
    · unfold bnWords at ht
      rw [List.getElem?_take_of_lt (by omega)] at ht
      rw [List.getD_eq_getElem?_getD, ht] at hn
      exact hn

end Sys2Proof.Machine
end

