-- ==== Sys2Proof/Tests/Slice0.lean ====
section
/-!
SUPPORT. Tests: words of the spec's encoding tables decoded, the check of WellFormed, one step per command on the
examples the spec's rules give, and for every statement with hypotheses a witness that meets them.
-/

namespace Sys2Proof.Tests

open Sys2Proof Sys2Proof.Machine

-- The tests are elaborated one after another: their threads' stacks together would need much memory.
set_option Elab.async false

/-! ## Small states -/

/-- A state with PLEN = the number of indices given, and these in SIG. -/
def withSig (xs : List Half) : State :=
  writeSig (setPlen State.reset xs.length) xs.length fun i => xs.getD i 0

/-- A state with the first bytes of a buffer. -/
def withBytes (s : State) (b : Buf) (bs : List Byte) : State :=
  writeBuf s b bs.length fun o => bs.getD o 0

/-- A state with a value in one big-integer register and in OPW. -/
def withBn (d : BnSel) (ws : List Word) (opw : Word) : State :=
  { writeBn State.reset d ws with opw := opw }

/-- A state with one byte of the hash. -/
def withHash (o : Nat) (b : Byte) : State :=
  { State.reset with mem := State.reset.mem.patch (bufBase .hash + o) 1 fun _ => b }

/-- A state that is BUSY with a command word. -/
def running (c : Word) (es : List Event) : State :=
  { State.reset with cmd := c, busy := true, schedule := es }

/-- What a view of the next state shows, if there is a next state. -/
def sees {α : Type} (o : Host.Outcome State Fault Refusal) (view : State → α) : Option α :=
  match o with
  | .next t => some (view t)
  | .fault _ => none
  | .refused _ => none

/-! ## WellFormed -/

/-- The shift distance must fit 16 bits (R92). -/
theorem test_shift_distance_too_large : wellFormed (.bnShrw .bna 65536) = false := by decide

theorem test_shift_distance_largest : wellFormed (.bnShrw .bna 65535) = true := by decide

/-! ## Decoding: words written out from R93 and R98 -/

theorem test_decode_nop : decode 0b00000000000000000000000000000000 = .ok .nop := by decide
theorem test_decode_zeroize : decode 0b00000000000000000000000000000001 = .ok .zeroize := by decide
theorem test_decode_piota : decode 0b00000000000000000000000000010000 = .ok .piota := by decide
theorem test_decode_pshuf : decode 0b00000000000000000000000000010001 = .ok .pshuf := by decide
theorem test_decode_papply : decode 0b00000000000000000000000000010010 = .ok .papply := by decide
theorem test_decode_ppack : decode 0b00000000000000000000000000010011 = .ok .ppack := by decide
theorem test_decode_punpk : decode 0b00000000000000000000000000010100 = .ok .punpk := by decide
theorem test_decode_pwt_vb : decode 0b00000000000000000000001000010101 = .ok (.pwt .vb) := by decide
theorem test_decode_syn : decode 0b00000000000000000000000000100000 = .ok .syn := by decide
theorem test_decode_bnLdh_b : decode 0b00000000000000000000000100110000 = .ok (.bnLdh .bnb) := by decide
theorem test_decode_bnMulw_b : decode 0b00000000000000000000000100110001 = .ok (.bnMulw .bnb) := by decide
theorem test_decode_bnDiv3_b_a : decode 0b00000000000000000000000100110010 = .ok (.bnDiv3 .bnb .bna) := by
  decide
theorem test_decode_bnCopy_a_b : decode 0b00000000000000000000001000110011 = .ok (.bnCopy .bna .bnb) := by
  decide
theorem test_decode_bnShrw_b : decode 0b00000000000100000000000100110100 = .ok (.bnShrw .bnb 16) := by
  decide
theorem test_decode_chal : decode 0b00000000000000000000000001000000 = .ok .chal := by decide

/-- A reserved bit makes a listed word illegal (R95). -/
theorem test_decode_reserved_bit : decode 0x00000412 = .error (.reservedBits 0x00000412) := by decide

/-- An op value outside the map is illegal (R95). -/
theorem test_decode_unlisted : decode 0x00000002 = .error (.unlistedOpcode 0x02) := by decide

/-- The words as the opcode table numbers them. -/
theorem test_decodeTableWord : decodeTableWord 32 0x00100034 = some (.bnShrw .bna 16) := by decide

/-! ## One step per command -/

/-- R172: "IDLE, `NOP`, `WAIT`: STATUS reads 0x00000002". -/
theorem test_nop_status : sees (step (State.reset.withFetchWord 32 0x00000000)) statusWord =
    some 0x00000002 := by decide

/-- R173: after ZEROIZE a byte of SIG and OPW read 0, PLEN keeps its value. -/
theorem test_zeroize :
    sees (exec .zeroize { withSig [0x123, 0xABC] with opw := 7 })
      (fun t => (sigAt t 1, t.opw, t.plen)) = some (0, 0, 2) := by decide +kernel

/-- R173: ZEROIZE issued in FAULT completes with DONE = 1 while ERR stays 1. -/
theorem test_zeroize_in_fault :
    sees (exec .zeroize { running 0x00000001 [] with err := true, errCode := 3 })
      (fun t => (t.done, t.busy, t.err, t.errCode)) = some (true, false, true, 3) := by decide

/-- R113: "PLEN = 4, any SIG, PIOTA gives SIG[0..3] = 0, 1, 2, 3". -/
theorem test_piota : sees (exec .piota (withSig [9, 9, 9, 9]))
    (fun t => (List.range 4).map (sigAt t)) = some [0, 1, 2, 3] := by decide +kernel

/-- R114: "L = 3, ENT = 5, 5, 1 and SIG = 2, 0, 1", ascending keys 0x10001, 0x50000, 0x50002. -/
theorem test_pshuf : sees (exec .pshuf (withBytes (withSig [2, 0, 1]) .ent [5, 0, 0, 0, 5, 0, 0, 0, 1]))
    (fun t => (List.range 3).map (sigAt t)) = some [1, 0, 2] := by decide +kernel

/-- R115: "L = 12, SIG = 11, 10, …, 0 (reversal), VA bytes F0 A0: VB bytes become 50 F0". -/
theorem test_papply :
    sees (exec .papply (withBytes (withSig [11, 10, 9, 8, 7, 6, 5, 4, 3, 2, 1, 0]) .va [0xF0, 0xA0]))
      (fun t => (bufByte t .vb 0, bufByte t .vb 1)) = some (0x50, 0xF0) := by decide +kernel

/-- R115, R181: the lowest index out of range. -/
theorem test_papply_index : sees (exec .papply (withSig [0, 3, 7])) (fun t => (t.err, t.errCode, t.errInfo)) =
    some (true, 5, 1) := by decide +kernel

/-- R116: "L = 2, SIG = 0x123, 0xABC: PK bytes 12 3A BC, PKLEN = 3". -/
theorem test_ppack : sees (exec .ppack (withSig [0x123, 0xABC]))
    (fun t => (bufByte t .pk 0, bufByte t .pk 1, bufByte t .pk 2, t.pklen)) =
      some (0x12, 0x3A, 0xBC, 3) := by decide +kernel

/-- R116: an odd count is found before an index out of range. -/
theorem test_ppack_odd : sees (exec .ppack (withSig [0x1000])) (fun t => (t.errCode, t.errInfo, t.done)) =
    some (3, 1, false) := by decide +kernel

/-- R118: "PKLEN = 3, PK bytes B4 F0 00: SIG[0] = 0xB4F = 2895, SIG[1] = 0, PLEN = 2". -/
theorem test_punpk : sees (exec .punpk (withBytes (setPklen State.reset 3) .pk [0xB4, 0xF0, 0x00]))
    (fun t => (sigAt t 0, sigAt t 1, t.plen)) = some (0xB4F, 0, 2) := by decide +kernel

/-- R118: a byte count that is no multiple of 3. -/
theorem test_punpk_length : sees (exec .punpk (setPklen State.reset 4)) (fun t => (t.errCode, t.errInfo)) =
    some (4, 4) := by decide +kernel

/-- R119: "VA bytes 0 = 0xE0, all others 0: `PWT VA` gives WEIGHT = 3". -/
theorem test_pwt : sees (exec (.pwt .va) (withBytes State.reset .va [0xE0])) (fun t => t.weight) = some 3 := by
  decide +kernel

/-- R131: SYN while the matrix is not locked. -/
theorem test_syn_unlocked : sees (exec .syn State.reset) (fun t => (t.err, t.errCode, t.errInfo)) =
    some (true, 6, 0) := by decide

/-- R45: row 1 bit 3 of the matrix is the 0x10 bit of HM byte 181. -/
theorem test_hm_row_layout :
    hmBit { State.reset with mem := State.reset.mem.patch (bufBase .hm + 181) 1 fun _ => 0x10 } 1 3 = true := by
  decide +kernel

/-- R131: SYN with the matrix locked completes. -/
theorem test_syn_locked : sees (exec .syn { State.reset with mlock := true }) (fun t => (t.done, t.err)) =
    some (true, false) := by decide +kernel

/-- R143: "HASH.byte[63] = 0x01, all other bytes 0: BN[d].w[0] = 1, LEN[d] = 1". -/
theorem test_bnLdh : sees (exec (.bnLdh .bnb) (withHash 63 0x01)) (fun t => bnWords t .bnb) = some [1] := by
  decide +kernel

/-- R143: "HASH.byte[0] = 0x80, others 0: w[15] = 0x80000000, …, LEN[d] = 16". -/
theorem test_bnLdh_top : sees (exec (.bnLdh .bna) (withHash 0 0x80))
    (fun t => (t.lenA, t.bna.toList.getD 15 0, t.bna.toList.getD 0 1)) = some (16, 0x80000000, 0) := by
  decide +kernel

/-- R144: the example with OPW = 3^20. -/
theorem test_bnMulw : sees (exec (.bnMulw .bna) (withBn .bna [0xFFFFFFFF, 0xFFFFFFFF] 0xCFD41B91))
    (fun t => bnWords t .bna) = some [0x302BE46F, 0xFFFFFFFF, 0xCFD41B90] := by decide +kernel

/-- R144: "BN[B] = (16, sixteen words 0xFFFFFFFF), OPW = 2: E_CAP(17)". -/
theorem test_bnMulw_cap : sees (exec (.bnMulw .bnb) (withBn .bnb (List.replicate 16 0xFFFFFFFF) 2))
    (fun t => (t.errCode, t.errInfo, t.lenB)) = some (2, 17, 16) := by decide +kernel

/-- R146: "BN[A] = (2, [0x00000001, 0x00000002]) …: gives (1, [0xAAAAAAAB]), REM = 0". -/
theorem test_bnDiv3 : sees (exec (.bnDiv3 .bna .bna) (withBn .bna [1, 2] 0))
    (fun t => (bnWords t .bna, t.rem)) = some ([0xAAAAAAAB], 0) := by decide +kernel

/-- R146: "BN[A] = (1, [0x0000000A]) … gives (1, [0x00000003]), REM = 1". -/
theorem test_bnDiv3_rem : sees (exec (.bnDiv3 .bnb .bna) (withBn .bna [10] 0))
    (fun t => (bnWords t .bnb, t.rem, bnWords t .bna)) = some ([3], 1, [10]) := by decide +kernel

/-- R148: "BN[A] = (3, [1, 2, 3]), `BN_COPY B, A`: BN[B] = (3, [1, 2, 3])". -/
theorem test_bnCopy : sees (exec (.bnCopy .bnb .bna) (withBn .bna [1, 2, 3] 0)) (fun t => bnWords t .bnb) =
    some [1, 2, 3] := by decide +kernel

/-- R148: "With LEN[A] = 17: E_CAP(17)". -/
theorem test_bnCopy_cap : sees (exec (.bnCopy .bnb .bna) { State.reset with lenA := 17 })
    (fun t => (t.errCode, t.errInfo)) = some (2, 17) := by decide +kernel

/-- R149: "BN[A] = (3, [7, 8, 9]), `BN_SHRW A, 1`: (2, [8, 9])". -/
theorem test_bnShrw : sees (exec (.bnShrw .bna 1) (withBn .bna [7, 8, 9] 0)) (fun t => bnWords t .bna) =
    some [8, 9] := by decide +kernel

/-- R149: "BN[A] = (3, [7, 0, 0]), `BN_SHRW A, 0`: (1, [7])". -/
theorem test_bnShrw_normalises : sees (exec (.bnShrw .bna 0) (withBn .bna [7, 0, 0] 0))
    (fun t => bnWords t .bna) = some [7] := by decide +kernel

/-- R163, by hand: H = 2^165 gives H' = floor(3^219 / 2^347) = 1, so one division is made. -/
theorem test_chal_one_division : sees (exec .chal (withHash 43 0x20))
    (fun t => (chAt t 218, chAt t 217, t.rem, t.lenA)) = some (1, 0, 1, 0) := by decide +kernel

/-- R163: the all-zero hash makes no division and leaves REM. -/
theorem test_chal_zero : sees (exec .chal { State.reset with rem := 2 })
    (fun t => (chAt t 0, chAt t 218, t.rem)) = some (0, 0, 2) := by decide +kernel

/-! ## Witnesses: the hypotheses of each statement hold together somewhere -/

theorem witness_DecodeOfEncodeIsIdentity : wellFormed (.bnShrw .bnb 65535) = true := by decide

theorem witness_EncodeOfDecodeIsIdentity : decode 0xFFFF0134 = .ok (.bnShrw .bnb 65535) := by decide

/-- One unlisted op value, one listed op value with a reserved bit set. -/
theorem witness_IllegalWordIsAcceptedAndFaults :
    State.reset.busy = false ∧ State.reset.err = false ∧ State.reset.schedule = [] ∧
    (setSchedule State.reset [.engine]).busy = false ∧ (setSchedule State.reset [.engine]).err = false ∧
    (setSchedule State.reset [.engine]).schedule = .engine :: [] ∧
    ∀ v ∈ ([0x00000002, 0x00000410] : List Word),
      ∀ row ∈ ([(0x00000000, 0xFFFFFFFF), (0x00000001, 0xFFFFFFFF), (0x00000010, 0xFFFFFFFF),
        (0x00000011, 0xFFFFFFFF), (0x00000012, 0xFFFFFFFF), (0x00000013, 0xFFFFFFFF),
        (0x00000014, 0xFFFFFFFF), (0x00000015, 0xFFFFFDFF), (0x00000020, 0xFFFFFFFF),
        (0x00000030, 0xFFFFFEFF), (0x00000031, 0xFFFFFEFF), (0x00000032, 0xFFFFFCFF),
        (0x00000033, 0xFFFFFCFF), (0x00000034, 0x0000FEFF), (0x00000040, 0xFFFFFFFF)] :
        List (Word × Word)), v &&& row.2 ≠ row.1 := by
  refine ⟨rfl, rfl, rfl, rfl, rfl, rfl, ?_⟩
  simp

theorem witness_StepRunsTheDecodedCommand :
    (running 0x00000010 []).busy = true ∧ decode (running 0x00000010 []).cmd = .ok .piota ∧
    (running 0x00000010 []).schedule = [] ∧
    (running 0x00000010 [.engine]).busy = true ∧
    decode (running 0x00000010 [.engine]).cmd = .ok .piota ∧
    (running 0x00000010 [.engine]).schedule = .engine :: [] := by decide

theorem witness_EngineNotBusyStaysAsItIs :
    State.reset.busy = false ∧ State.reset.schedule = [] ∧
    (setSchedule State.reset [.engine]).busy = false ∧
    (setSchedule State.reset [.engine]).schedule = .engine :: [] := by decide

theorem witness_EveryStepAnswersAndTheEngineFinishes :
    (running 0x00000000 []).schedule = [] ∧
    ∃ rest, (running 0x00000000 [.engine]).schedule = .engine :: rest := ⟨rfl, [], rfl⟩

theorem witness_NopOnlyCompletes : ({ State.reset with err := true, errCode := 3 } : State).err = true := rfl

theorem witness_CommandsLeaveTheirInputsAlone :
    Instr.nop ≠ .zeroize ∧ (∃ t, exec .nop State.reset = .next t) ∧
    ∃ t, exec .zeroize State.reset = .next t := ⟨by decide, ⟨_, rfl⟩, ⟨_, rfl⟩⟩

theorem witness_CommandsWithoutChecksAlwaysComplete :
    Instr.chal ∈ [Instr.nop, .zeroize, .piota, .pshuf, .pwt .va, .bnLdh .bna, .bnShrw .bna 65535, .chal] := by
  decide

/-- The last byte of CH is cleared, the pad byte after it and the first byte of HM are outside. -/
theorem witness_ZeroizeClearsEverySecret :
    Buf.ch ≠ .hm ∧ 218 < bufSize .ch ∧
    (∀ b : Buf, b ≠ .hm → ¬(bufBase b ≤ 0x3DB ∧ 0x3DB < bufBase b + bufSize b)) ∧
    ∀ b : Buf, b ≠ .hm → ¬(bufBase b ≤ 0x40000 ∧ 0x40000 < bufBase b + bufSize b) := by
  refine ⟨by decide, by decide, fun b hb => ?_, fun b hb => ?_⟩ <;>
    cases b <;> simp [bufBase, bufSize] at hb ⊢

/-- The last element of SIG is below PLEN after reset, and the next byte lies outside. -/
theorem witness_PiotaLoadsTheIdentity :
    2895 < State.reset.plen.toNat ∧ ¬(bufBase .sig ≤ 0x26A0 ∧ 0x26A0 < bufBase .sig + 2 * 2896) := by decide

theorem witness_PshufSortsTheKeys :
    2895 < State.reset.plen.toNat ∧ ¬(bufBase .sig ≤ 0x26A0 ∧ 0x26A0 < bufBase .sig + 2 * 2896) := by decide

/-- Both clauses, the second at the largest index and at the bound itself. -/
theorem witness_PapplyPermutesBitsOrFaultsAtLowestIndex :
    (∀ i < (withSig [1, 0]).plen.toNat, (sigAt (withSig [1, 0]) i).toNat < (withSig [1, 0]).plen.toNat) ∧
    (1 < (withSig [0, 2]).plen.toNat ∧ (withSig [0, 2]).plen.toNat ≤ (sigAt (withSig [0, 2]) 1).toNat ∧
      ∀ j < 1, (sigAt (withSig [0, 2]) j).toNat < (withSig [0, 2]).plen.toNat) := by decide +kernel

theorem witness_PapplyByABijectionKeepsTheWeight :
    (∀ i < (withSig [1, 0]).plen.toNat, (sigAt (withSig [1, 0]) i).toNat < (withSig [1, 0]).plen.toNat) ∧
    ∀ i < (withSig [1, 0]).plen.toNat, ∀ j < (withSig [1, 0]).plen.toNat,
      sigAt (withSig [1, 0]) i = sigAt (withSig [1, 0]) j → i = j := by decide +kernel

theorem witness_PpackPacksTwelveBitIndicesOrFaults :
    ((withSig [0xFFF, 0]).plen.toNat % 2 = 0 ∧
      ∀ i < (withSig [0xFFF, 0]).plen.toNat, (sigAt (withSig [0xFFF, 0]) i).toNat < 4096) ∧
    (withSig [0]).plen.toNat % 2 = 1 ∧
    ((withSig [0, 0x1000]).plen.toNat % 2 = 0 ∧ 1 < (withSig [0, 0x1000]).plen.toNat ∧
      4096 ≤ (sigAt (withSig [0, 0x1000]) 1).toNat ∧
      ∀ j < 1, (sigAt (withSig [0, 0x1000]) j).toNat < 4096) := by decide +kernel

theorem witness_PunpkUnpacksTwelveBitIndicesOrFaults :
    (State.reset.pklen.toNat ≤ 4344 ∧ State.reset.pklen.toNat % 3 = 0 ∧ 1447 < State.reset.pklen.toNat / 3) ∧
    (setPklen State.reset 4343).pklen.toNat % 3 ≠ 0 := by decide

theorem witness_PackAndUnpackAreInverse :
    ((withSig [0xFFF, 0]).plen.toNat % 2 = 0 ∧
      ∀ i < (withSig [0xFFF, 0]).plen.toNat, (sigAt (withSig [0xFFF, 0]) i).toNat < 4096) ∧
    (State.reset.pklen.toNat ≤ 4344 ∧ State.reset.pklen.toNat % 3 = 0) := by decide +kernel

theorem witness_SynMultipliesByTheMatrixOrFaults :
    ({ State.reset with mlock := true } : State).mlock = true ∧ State.reset.mlock = false := ⟨rfl, rfl⟩

/-- Keys that differ: bit 0 set in one, bit 1 in the other, both in their sum. -/
theorem witness_SyndromeIsLinear :
    let m : State := { State.reset with mlock := true }
    let a := writeBuf m .va 1 fun _ => 0x80
    let b := writeBuf m .va 1 fun _ => 0x40
    let c := writeBuf m .va 1 fun _ => 0xC0
    a.mlock = true ∧ b.mlock = true ∧ c.mlock = true ∧
    (∀ o < 262088, bufByte b .hm o = bufByte a .hm o ∧ bufByte c .hm o = bufByte a .hm o) ∧
    ∀ i < 2896, bufBit c .va i = (bufBit a .va i ^^ bufBit b .va i) := by
  refine ⟨rfl, rfl, rfl, fun o ho => ?_, fun i _ => ?_⟩
  · have h : ∀ f, bufByte (writeBuf { State.reset with mlock := true } .va 1 f) .hm o =
        bufByte { State.reset with mlock := true } .hm o := fun f =>
      bufByte_writeBuf_other _ (by decide) (by decide) f ho
    exact ⟨(h _).trans (h _).symm, (h _).trans (h _).symm⟩
  · unfold bufBit
    rw [bufByte_writeBuf_self, bufByte_writeBuf_self, bufByte_writeBuf_self]
    by_cases h : i / 8 < 1
    · rw [if_pos h, if_pos h, if_pos h]
      have hi : i < 8 := by omega
      interval_cases i <;> decide
    · rw [if_neg h, if_neg h, if_neg h]
      have hz : bufByte ({ State.reset with mlock := true } : State) .va (i / 8) = 0 := by
        unfold bufByte readByte Memory.get State.reset
        rw [List.lookup_nil, background, if_neg]
        simp only [bufBase]
        omega
      rw [hz]
      simp [byteBit]

/-- BNA of V-MULW-9, whose product with OPW = 2 is the largest even value below 2^1024. -/
def fullBna (opw : Word) : State := withBn .bna (List.replicate 31 0xFFFFFFFF ++ [0x7FFFFFFF]) opw

/-- The first clause on one word, at the boundary (V-MULW-9, 2^1024 − 2) and with OPW = 0; the second with BNB
full (V-MULW-7) and at its boundary 2^512. -/
theorem witness_BnMulwIsExactOrFaults :
    (∀ s ∈ [withBn .bna [5] 3, fullBna 2, fullBna 0], bnLen s .bna ≤ bnCap .bna ∧
      bnVal s .bna * s.opw.toNat < 2 ^ (32 * bnCap .bna)) ∧
    bnVal (fullBna 2) .bna * (fullBna 2).opw.toNat = 2 ^ (32 * bnCap .bna) - 2 ∧
    (∀ s ∈ [withBn .bnb (List.replicate 16 0xFFFFFFFF) 2,
        withBn .bnb (List.replicate 15 0 ++ [0x80000000]) 2], bnLen s .bnb ≤ bnCap .bnb ∧
      2 ^ (32 * bnCap .bnb) ≤ bnVal s .bnb * s.opw.toNat) := by decide +kernel

/-- V-MULW-9: a product that fits exactly completes. -/
theorem test_bnMulw_fits_exactly : sees (exec (.bnMulw .bna) (fullBna 2))
    (fun t => (t.done, bnWords t .bna)) = some (true, 0xFFFFFFFE :: List.replicate 31 0xFFFFFFFF) := by
  decide +kernel

/-- Quotient lengths 0, 0 (top word 2), 1 (top word 3), and 17 against a capacity of 16. -/
theorem witness_BnDiv3IsExactOrFaults :
    (bnLen State.reset .bna ≤ bnCap .bna ∧ bnLen State.reset .bna = 0) ∧
    (bnLen (withBn .bna [2] 0) .bna = 1 ∧
      ((bnArray (withBn .bna [2] 0) .bna).getD (bnLen (withBn .bna [2] 0) .bna - 1) 0).toNat < 3) ∧
    (bnLen (withBn .bna [3] 0) .bna = 1 ∧
      ¬((bnArray (withBn .bna [3] 0) .bna).getD (bnLen (withBn .bna [3] 0) .bna - 1) 0).toNat < 3) ∧
    (bnLen (withBn .bna (List.replicate 17 3) 0) .bna ≤ bnCap .bna ∧
      bnLen (withBn .bna (List.replicate 17 3) 0) .bna = 17 ∧
      ¬((bnArray (withBn .bna (List.replicate 17 3) 0) .bna).getD 16 0).toNat < 3 ∧ bnCap .bnb < 17) := by
  decide +kernel

theorem witness_ReciprocalEstimateIsCorrect : 0x2FFFFFFFF < 3 * 2 ^ 32 := by decide

/-- A source of length 16 fits BNB, one of length 17 does not. -/
theorem witness_BnCopyCopiesOrFaults :
    (bnLen { State.reset with lenA := 16 } .bna ≤ bnCap .bna ∧
      bnLen { State.reset with lenA := 16 } .bna ≤ bnCap .bnb) ∧
    (bnLen { State.reset with lenA := 17 } .bna ≤ bnCap .bna ∧
      bnCap .bnb < bnLen { State.reset with lenA := 17 } .bna) := by decide

theorem witness_BnShrwDividesByWordPowers : 65535 < 65536 := by decide

/-- Every clause's premises, on normalised registers of length 1. -/
theorem witness_BigIntegerCommandsKeepNormalForm :
    let s := withBn .bna [7] 3
    s.done = false ∧ (∀ r, bnLen s r ≤ bnCap r) ∧ normalised s .bna ∧
    ∀ i ∈ [Instr.bnLdh .bna, .bnShrw .bna 0, .bnMulw .bna, .bnDiv3 .bna .bna, .bnCopy .bnb .bna],
      ∃ t, exec i s = .next t ∧ t.done = true := by
  refine ⟨rfl, fun r => by cases r <;> decide +kernel, by decide +kernel, fun i hi => ?_⟩
  have key : ∀ j ∈ [Instr.bnLdh .bna, .bnShrw .bna 0, .bnMulw .bna, .bnDiv3 .bna .bna, .bnCopy .bnb .bna],
      sees (exec j (withBn .bna [7] 3)) (fun t => t.done) = some true := by decide +kernel
  rcases exec_cases i (withBn .bna [7] 3) with ⟨c, info, h⟩ | ⟨w, h, -⟩
  · have hd := key i hi
    rw [h] at hd
    have hf : false = true := Option.some.inj hd
    cases hf
  · exact ⟨_, h, rfl⟩

/-- H' = 0, H' = 1 (digit position 0) and H' of 219 digits. -/
theorem witness_ChalWritesTheBase3DigitsOfTheScaledHash :
    scaledHash State.reset = 0 ∧
    (3 ^ 0 ≤ scaledHash (withHash 43 0x20) ∧ scaledHash (withHash 43 0x20) < 3 ^ (0 + 1)) ∧
    (3 ^ 218 ≤ scaledHash (withHash 0 0x80) ∧ scaledHash (withHash 0 0x80) < 3 ^ (218 + 1)) := by
  rw [← chalWords_val, ← chalWords_val, ← chalWords_val]
  decide +kernel

/-- The invariant of the state right after reset with an event still to come, which answers a next state. -/
theorem witness_EveryStepKeepsTheInvariant :
    Inv (setSchedule State.reset [.reset]) ∧ ∃ t, step (setSchedule State.reset [.reset]) = .next t := by
  refine ⟨⟨reset_mem_wf, ?_, by decide, by decide, by decide, by decide, by decide, by decide, ?_,
    fun _ => ⟨rfl, rfl⟩, fun h => (by cases h), fun h => (by cases h), fun h => (by cases h)⟩, _, rfl⟩
  · intro c hc
    cases hc
  · intro i hi
    have hz : bufByte (setSchedule State.reset [.reset]) .ch i = 0 := by
      unfold bufByte readByte Memory.get setSchedule State.reset
      rw [List.lookup_nil, background, if_neg]
      simp only [bufBase]
      omega
    unfold chAt
    rw [hz]
    decide

theorem witness_ResetInAnyStateGivesTheResetState :
    (running 0x00000040 [.reset]).schedule = .reset :: [] := rfl

/-- One state whose next event is a refused write to HM, one whose next event is the engine's turn. -/
theorem witness_LockedMatrixIsFixedUntilReset :
    ∀ e ∈ [Event.write 0x40000 .word 1, .engine],
      (∃ t, step { setSchedule State.reset [e] with mlock := true } = .next t) ∧
      ({ setSchedule State.reset [e] with mlock := true } : State).mlock = true ∧
      ∀ rest, ({ setSchedule State.reset [e] with mlock := true } : State).schedule ≠ .reset :: rest := by
  intro e he
  simp only [List.mem_cons, List.not_mem_nil, or_false] at he
  rcases he with rfl | rfl <;> refine ⟨⟨_, rfl⟩, rfl, fun rest h => ?_⟩ <;> simp [setSchedule] at h

/-- A fault recorded while a ZEROIZE runs, and the next event a STATUS write that clears only DONE. -/
theorem witness_FaultRecordLastsUntilAcknowledged :
    let s : State := { running 0x00000001 [.write 0x00010 .word 2] with err := true, errCode := 3 }
    (∃ t, step s = .next t) ∧ s.err = true ∧ (s.busy = true → s.cmd = 0x00000001) ∧
    (∀ rest, s.schedule ≠ .reset :: rest) ∧
    ∀ v rest, s.schedule = .write 0x00010 .word v :: rest → v.getLsbD 2 = false := by
  refine ⟨⟨_, rfl⟩, rfl, fun _ => rfl, fun rest h => ?_, fun v rest h => ?_⟩
  · simp [running] at h
  · simp only [running, List.cons.injEq, Event.write.injEq, true_and] at h
    rw [← h.1]
    decide

theorem witness_NothingDisturbsARunningCommand :
    let s := running 0x00000010 [.write 0x00014 .word 0x103]
    s.busy = true ∧ s.schedule = .write 0x00014 .word 0x103 :: [] ∧
    Event.write 0x00014 .word 0x103 ≠ .engine ∧ Event.write 0x00014 .word 0x103 ≠ .reset ∧
    ∃ t, step s = .next t := ⟨rfl, rfl, by decide, by decide, _, rfl⟩

theorem witness_ReadsAndRefusedWritesChangeNothing :
    (setSchedule State.reset [.read 0x00010 .word]).schedule = .read 0x00010 .word :: [] ∧
    (setSchedule State.reset [.write 0x00000 .word 1]).schedule = .write 0x00000 .word 1 :: [] ∧
    busWrite (setSchedule State.reset [.write 0x00000 .word 1]) 0x00000 .word 1 = none := by decide

theorem witness_AcceptedWriteTakesEffectAtOnce :
    (setSchedule State.reset [.write 0x0001C .word 7]).schedule = .write 0x0001C .word 7 :: [] ∧
    ∃ t, busWrite (setSchedule State.reset [.write 0x0001C .word 7]) 0x0001C .word 7 = some t :=
  ⟨rfl, Option.isSome_iff_exists.1 (by decide)⟩

/-- Each way to be refused: a width, an alignment, and the words next to mapped regions. -/
theorem witness_OnlyAlignedMappedWordsAreAccessible :
    Width.half ≠ .word ∧ (0x00012 : BitVec 19).toNat % 4 ≠ 0 ∧
    ∀ addr ∈ ([0x00038, 0x000FC, 0x001C0, 0x00240, 0x003DC, 0x0056C, 0x0076C, 0x008B8, 0x026A0, 0x040F8,
        0x07D40, 0x7FFC8] : List (BitVec 19)),
      ∀ r ∈ ([(0x00000, 0x00037), (0x00100, 0x0017F), (0x00180, 0x001BF), (0x00200, 0x0023F),
          (0x00300, 0x003DB), (0x00400, 0x0056B), (0x00600, 0x0076B), (0x00800, 0x008B7),
          (0x01000, 0x0269F), (0x03000, 0x040F7), (0x05000, 0x07D3F), (0x40000, 0x7FFC7)] :
          List (Nat × Nat)), ¬(r.1 ≤ addr.toNat ∧ addr.toNat ≤ r.2) := by simp

/-- Both sides of each equivalence are met and missed: addresses 0x34, 0x38, 0x10, 0x14 and 0x18. -/
theorem witness_BusyEngineAllowsRegisterReadsAndFlagWrites :
    (running 0x00000010 []).busy = true ∧
    ∀ addr ∈ ([0x00034, 0x00038, 0x00010, 0x00014, 0x00018] : List (BitVec 19)), addr.toNat % 4 = 0 := by
  simp [running]

/-- Each disjunct at a boundary value, the last one in BUSY and in FAULT. -/
theorem witness_ReadOnlyAndOutOfRangeWritesAreRefused :
    (0x00034 : BitVec 19).toNat ∈ [0x00, 0x04, 0x08, 0x18, 0x20, 0x34] ∧
    (0x300 ≤ (0x003DB : BitVec 19).toNat ∧ (0x003DB : BitVec 19).toNat ≤ 0x3DB) ∧
    (0x600 ≤ (0x00600 : BitVec 19).toNat ∧ (0x00600 : BitVec 19).toNat ≤ 0x76B) ∧
    (0x800 ≤ (0x008B4 : BitVec 19).toNat ∧ (0x008B4 : BitVec 19).toNat ≤ 0x8B7) ∧
    (({ State.reset with mlock := true } : State).mlock = true ∧ 0x40000 ≤ (0x40000 : BitVec 19).toNat) ∧
    ((0x00024 : BitVec 19).toNat = 0x24 ∧ 32 < (33 : Word).toNat) ∧
    ((0x00028 : BitVec 19).toNat = 0x28 ∧ 16 < (17 : Word).toNat) ∧
    ((0x0002C : BitVec 19).toNat = 0x2C ∧ 2896 < (2897 : Word).toNat) ∧
    ((0x00030 : BitVec 19).toNat = 0x30 ∧ 4344 < (4345 : Word).toNat) ∧
    ((0x0000C : BitVec 19).toNat = 0x0C ∧
      ¬((running 0x00000010 []).busy = false ∧ ((running 0x00000010 []).err = false ∨ (1 : Word) = 0x00000001))) ∧
    ((0x0000C : BitVec 19).toNat = 0x0C ∧
      ¬(({ State.reset with err := true } : State).busy = false ∧
        (({ State.reset with err := true } : State).err = false ∨ (2 : Word) = 0x00000001))) := by decide

/-- Each length register at its largest legal value. -/
theorem witness_OperandRegistersStoreLegalValues :
    State.reset.busy = false ∧ (32 : Word).toNat ≤ 32 ∧ (16 : Word).toNat ≤ 16 ∧
    (2896 : Word).toNat ≤ 2896 ∧ (4344 : Word).toNat ≤ 4344 := by decide

/-- The last word of VA, which holds two pad bytes, and the last word of HM while it is not locked. -/
theorem witness_BufferWriteStoresLittleEndianBytes :
    State.reset.busy = false ∧
    (Buf.va ∈ [Buf.hash, .va, .sig, .pk, .ent, .hm] ∧ 4 * 90 < bufSize .va) ∧
    (Buf.hm ∈ [Buf.hash, .va, .sig, .pk, .ent, .hm] ∧ State.reset.mlock = false ∧ 4 * 65521 < bufSize .hm) := by
  decide

/-- The last word of CH, which holds one pad byte. -/
theorem witness_BufferReadReturnsLittleEndianBytes :
    State.reset.busy = false ∧ 4 * 54 < bufSize .ch ∧ bufSize .ch ≤ 4 * 54 + 3 := by decide

/-- The last word of each register. -/
theorem witness_BigIntegerWordsAreStoredWhole : State.reset.busy = false ∧ 31 < 32 ∧ 15 < 16 := by decide

end Sys2Proof.Tests
end

/-! ## Host accesses to registers and big-integer words (10_state.md, 20_memory.md section 3) -/

section
namespace Sys2Proof.Machine

/-- Where the aligned word `k` of the register block leads (R23, R66). -/
theorem target_reg {k : Nat} {r : Reg} (h : regMap[k]? = some r) :
    target (BitVec.ofNat 19 (4 * k)) .word = some (.reg r) := by
  have hk : k < 14 := (List.getElem?_eq_some_iff.1 h).1
  have ha : (BitVec.ofNat 19 (4 * k)).toNat = 4 * k := by
    rw [BitVec.toNat_ofNat]
    omega
  rw [target_word (by omega), ha, locate_of_lt (by omega), show 4 * k / 4 = k by omega, h]
  rfl

/-- A register is readable in every state (R64). -/
theorem busRead_reg (s : State) {k : Nat} {r : Reg} (h : regMap[k]? = some r) :
    busRead s (BitVec.ofNat 19 (4 * k)) .word = .data (regWord s r) := by
  unfold busRead
  rw [target_reg h]
  rfl

theorem busWrite_reg (s : State) (v : Word) {k : Nat} {r : Reg} (h : regMap[k]? = some r) :
    busWrite s (BitVec.ofNat 19 (4 * k)) .word v = writeReg s v r := by
  unfold busWrite
  rw [target_reg h]
  rfl

/-- The bus address of word 0 of a big-integer register (R66). -/
def bnBase : BnSel → Nat
  | .bna => 0x100
  | .bnb => 0x180

theorem target_bn {d : BnSel} {i : Nat} (h : i < bnCap d) :
    target (BitVec.ofNat 19 (bnBase d + 4 * i)) .word = some (.bn d i) := by
  cases d with
  | bna =>
    rw [bnCap_bna] at h
    have ha : (BitVec.ofNat 19 (bnBase .bna + 4 * i)).toNat = 0x100 + 4 * i := by
      simp only [BitVec.toNat_ofNat, bnBase]
      omega
    rw [target_word (by omega), ha, locate_of_bna h]
  | bnb =>
    rw [bnCap_bnb] at h
    have ha : (BitVec.ofNat 19 (bnBase .bnb + 4 * i)).toNat = 0x180 + 4 * i := by
      simp only [BitVec.toNat_ofNat, bnBase]
      omega
    rw [target_word (by omega), ha, locate_of_bnb h]

theorem busRead_bn {s : State} {d : BnSel} {i : Nat} (hb : s.busy = false) (h : i < bnCap d) :
    busRead s (BitVec.ofNat 19 (bnBase d + 4 * i)) .word = .data ((bnArray s d).getD i 0) := by
  unfold busRead
  rw [target_bn h]
  simp [readAllowed, hb, targetWord]

theorem busWrite_bn {s : State} {d : BnSel} {i : Nat} (hb : s.busy = false) (h : i < bnCap d)
    (v : Word) :
    busWrite s (BitVec.ofNat 19 (bnBase d + 4 * i)) .word v = some (setBnWord s d i v) := by
  unfold busWrite
  rw [target_bn h]
  simp [writeTarget, hb]

theorem bnArray_setBnWord_getD_self (s : State) {d : BnSel} {i : Nat} (h : i < bnCap d) (v : Word) :
    (bnArray (setBnWord s d i v) d).getD i 0 = v := by
  rw [bnArray_setBnWord, List.getD_eq_getElem?_getD,
    List.getElem?_set_self (by rwa [bnArray_length]), Option.getD_some]

theorem bnArray_setBnWord_getD_other (s : State) (d : BnSel) {i j : Nat} (h : j ≠ i) (v : Word) :
    (bnArray (setBnWord s d i v) d).getD j 0 = (bnArray s d).getD j 0 := by
  rw [bnArray_setBnWord, List.getD_eq_getElem?_getD, List.getElem?_set_ne h.symm,
    List.getD_eq_getElem?_getD]

/-- What the host sees of word `i` of a big-integer register, before and after it writes the word (R37,
R69); the frame of the write is in `setBnWord` itself. -/
theorem bn_word_read_and_stored {s : State} {d : BnSel} {i : Nat} (hb : s.busy = false)
    (h : i < bnCap d) :
    let addr := BitVec.ofNat 19 (bnBase d + 4 * i)
    busRead s addr .word = .data ((bnArray s d).getD i 0) ∧
    ∀ v : Word, ∃ t, busWrite s addr .word v = some t ∧ (bnArray t d).getD i 0 = v ∧
      busRead t addr .word = .data v ∧
      (∀ j, j ≠ i → (bnArray t d).getD j 0 = (bnArray s d).getD j 0) ∧ t = setBnWord s d i v := by
  have hb' : ∀ v, (setBnWord s d i v).busy = false := fun v => by rw [setBnWord_busy, hb]
  refine ⟨busRead_bn hb h, fun v => ⟨_, busWrite_bn hb h v, bnArray_setBnWord_getD_self s h v, ?_,
    fun j hj => bnArray_setBnWord_getD_other s d hj v, rfl⟩⟩
  rw [busRead_bn (hb' v) h, bnArray_setBnWord_getD_self s h v]

/-! ### The words of the flag registers, bit by bit (R28, R29) -/

theorem getLsbD_flagAt (b : Bool) {pos : Nat} (hp : pos < 32) (i : Nat) :
    (flagAt b pos).getLsbD i = (b && decide (i = pos)) := by
  cases b with
  | false => simp [flagAt]
  | true =>
    have hlt : pos = i → i < 32 := by omega
    rw [flagAt, if_pos rfl, BitVec.natCast_eq_ofNat, BitVec.getLsbD_ofNat, Nat.one_shiftLeft,
      Nat.testBit_two_pow]
    simpa [eq_comm] using hlt

theorem getLsbD_statusWord (s : State) {i : Nat} (hi : i < 32) :
    (statusWord s).getLsbD i =
      ((s.busy && decide (i = 0)) || (s.done && decide (i = 1)) || (s.err && decide (i = 2)) ||
        (s.mlock && decide (i = 3)) || (decide (8 ≤ i) && s.errCode.getLsbD (i - 8))) := by
  have hcode : (s.errCode.setWidth 32).getLsbD (i - 8) = s.errCode.getLsbD (i - 8) := by
    rw [BitVec.getLsbD_setWidth, decide_eq_true (show i - 8 < 32 by omega), Bool.true_and]
  have h8 : (!decide (i < 8)) = decide (8 ≤ i) := by rw [← decide_not]; simp
  simp only [statusWord, BitVec.getLsbD_or, getLsbD_flagAt, BitVec.getLsbD_shiftLeft, hcode, h8, hi,
    decide_true, Bool.true_and, Nat.reduceLT]

theorem getLsbD_ctrlWord (s : State) (i : Nat) :
    (ctrlWord s).getLsbD i =
      ((s.ieDone && decide (i = 0)) || (s.ieErr && decide (i = 1)) || (s.mlock && decide (i = 8))) := by
  simp only [ctrlWord, BitVec.getLsbD_or, getLsbD_flagAt, Nat.reduceLT]

/-- A field of a word is 0 when each of its bits is. -/
theorem extractLsb'_eq_zero {v : Word} {start len : Nat}
    (h : ∀ i < len, v.getLsbD (start + i) = false) : v.extractLsb' start len = 0 := by
  apply BitVec.eq_of_getLsbD_eq
  intro i hi
  simp [BitVec.getLsbD_extractLsb', h i hi]

/-- ERRCODE as STATUS shows it (R28). -/
theorem statusWord_errCode (s : State) : (statusWord s).extractLsb' 8 8 = s.errCode := by
  apply BitVec.eq_of_getLsbD_eq
  intro i hi
  have hne : ∀ k < 4, ¬ 8 + i = k := by omega
  rw [BitVec.getLsbD_extractLsb', getLsbD_statusWord s (by omega)]
  simp [hi, hne]

/-- The zero bits of STATUS (R28). -/
theorem statusWord_reserved (s : State) {i : Nat} (h : 4 ≤ i ∧ i < 8 ∨ 16 ≤ i ∧ i < 32) :
    (statusWord s).getLsbD i = false := by
  have hne : ∀ k < 4, ¬ i = k := by omega
  have hcode : 8 ≤ i → s.errCode.getLsbD (i - 8) = false := fun _ =>
    BitVec.getLsbD_of_ge _ _ (by omega)
  rw [getLsbD_statusWord s (by omega)]
  simpa [hne] using hcode

/-- The zero bits of CTRL (R29). -/
theorem ctrlWord_reserved (s : State) {i : Nat} (h : 2 ≤ i ∧ i ≠ 8) :
    (ctrlWord s).getLsbD i = false := by
  rw [getLsbD_ctrlWord]
  simp [show ¬ i = 0 by omega, show ¬ i = 1 by omega, h.2]

/-- A legal register value survives the narrowing to its field and the widening of the read (R22). -/
theorem setWidth_setWidth_of_lt {v : Word} {w : Nat} (h : v.toNat < 2 ^ w) :
    (v.setWidth w).toNat = v.toNat ∧ (v.setWidth w).setWidth 32 = v := by
  have hn : (v.setWidth w).toNat = v.toNat := by
    rw [BitVec.toNat_setWidth, Nat.mod_eq_of_lt h]
  refine ⟨hn, BitVec.eq_of_toNat_eq ?_⟩
  rw [BitVec.toNat_setWidth, hn, Nat.mod_eq_of_lt v.isLt]

/-- The check of a length register passes for a legal value while the engine is not BUSY (R33 to R35). -/
theorem accepted_of_le {α : Type} {busy : Bool} {n max : Nat} (hb : busy = false) (hn : n ≤ max) (x : α) :
    (if busy || decide (max < n) then none else some x) = some x :=
  if_neg (by simpa [hb] using hn)

/-! ### The statements -/

/-- Settles O46, bit by bit of `statusWord`. -/
theorem statusReadsAsItsFields : Obligations.StatusReadsAsItsFields := by
  intro s
  refine ⟨statusWord s, busRead_reg s (k := 4) rfl, ?_, ?_, ?_, ?_, ?_, statusWord_errCode s, ?_⟩
  · rw [getLsbD_statusWord s (by omega)]; simp
  · rw [getLsbD_statusWord s (by omega)]; simp
  · rw [getLsbD_statusWord s (by omega)]; simp
  · rw [getLsbD_statusWord s (by omega)]; simp
  · exact extractLsb'_eq_zero fun i hi => statusWord_reserved s (by omega)
  · exact extractLsb'_eq_zero fun i hi => statusWord_reserved s (by omega)

/-- Settles O47: the write is `writeCtrl`, and the read goes bit by bit through `ctrlWord`. -/
theorem ctrlWritesEnablesAndSetsTheLock : Obligations.CtrlWritesEnablesAndSetsTheLock := by
  refine ⟨fun s v => busWrite_reg s v (k := 5) rfl, fun s =>
    ⟨ctrlWord s, busRead_reg s (k := 5) rfl, ?_, ?_, ?_, ?_, ?_⟩⟩
  · rw [getLsbD_ctrlWord]; simp
  · rw [getLsbD_ctrlWord]; simp
  · rw [getLsbD_ctrlWord]; simp
  · exact extractLsb'_eq_zero fun i hi => ctrlWord_reserved s (by omega)
  · exact extractLsb'_eq_zero fun i hi => ctrlWord_reserved s (by omega)

/-- Settles O48: the three registers are words 0 to 2 of the register block. -/
theorem identityRegistersReadTheirConstants : Obligations.IdentityRegistersReadTheirConstants :=
  fun s => ⟨busRead_reg s (k := 0) rfl, busRead_reg s (k := 1) rfl, busRead_reg s (k := 2) rfl⟩

/-- Settles O49: a legal value fits its field, so narrowing and widening give it back. -/
theorem operandRegistersStoreLegalValues : Obligations.OperandRegistersStoreLegalValues := by
  refine ⟨fun s => ⟨busRead_reg s (k := 7) rfl, busRead_reg s (k := 9) rfl, busRead_reg s (k := 10) rfl,
    busRead_reg s (k := 11) rfl, busRead_reg s (k := 12) rfl⟩, fun s v hb => ⟨?_, ?_, ?_, ?_, ?_⟩⟩
  · refine ⟨{ s with opw := v }, (busWrite_reg s v (k := 7) rfl).trans ?_, rfl,
      busRead_reg _ (k := 7) rfl⟩
    simp [writeReg, hb]
  · intro hv
    obtain ⟨hn, hr⟩ := setWidth_setWidth_of_lt (v := v) (w := 6) (by omega)
    refine ⟨{ s with lenA := v.setWidth 6 }, (busWrite_reg s v (k := 9) rfl).trans
        (accepted_of_le hb hv _), rfl, hn,
      (busRead_reg _ (k := 9) rfl).trans (congrArg Reply.data hr)⟩
  · intro hv
    obtain ⟨hn, hr⟩ := setWidth_setWidth_of_lt (v := v) (w := 6) (by omega)
    refine ⟨{ s with lenB := v.setWidth 6 }, (busWrite_reg s v (k := 10) rfl).trans
        (accepted_of_le hb hv _), rfl, hn,
      (busRead_reg _ (k := 10) rfl).trans (congrArg Reply.data hr)⟩
  · intro hv
    obtain ⟨hn, hr⟩ := setWidth_setWidth_of_lt (v := v) (w := 12) (by omega)
    refine ⟨{ s with plen := v.setWidth 12 }, (busWrite_reg s v (k := 11) rfl).trans
        (accepted_of_le hb hv _), rfl, hn,
      (busRead_reg _ (k := 11) rfl).trans (congrArg Reply.data hr)⟩
  · intro hv
    obtain ⟨hn, hr⟩ := setWidth_setWidth_of_lt (v := v) (w := 13) (by omega)
    refine ⟨{ s with pklen := v.setWidth 13 }, (busWrite_reg s v (k := 12) rfl).trans
        (accepted_of_le hb hv _), rfl, hn,
      (busRead_reg _ (k := 12) rfl).trans (congrArg Reply.data hr)⟩

/-- Settles O52, one register at a time. -/
theorem bigIntegerWordsAreStoredWhole : Obligations.BigIntegerWordsAreStoredWhole := by
  refine ⟨fun s i hb hi => ?_, fun s i hb hi => ?_⟩
  · obtain ⟨hread, hwrite⟩ := bn_word_read_and_stored (d := .bna) hb hi
    refine ⟨hread, fun v => ?_⟩
    obtain ⟨t, ht, hself, hback, hother, rfl⟩ := hwrite v
    exact ⟨_, ht, hself, hback, hother, rfl⟩
  · obtain ⟨hread, hwrite⟩ := bn_word_read_and_stored (d := .bnb) hb hi
    refine ⟨hread, fun v => ?_⟩
    obtain ⟨t, ht, hself, hback, hother, rfl⟩ := hwrite v
    exact ⟨_, ht, hself, hback, hother, rfl⟩

/-- Settles O53, by the definition of `irq`. -/
theorem irqIsTheEnabledFlags : Obligations.IrqIsTheEnabledFlags := by
  intro s
  simp [irq]

/-- Settles O54: the four registers are words 3, 6, 8 and 13 of the register block. -/
theorem resultRegistersReadTheirFields : Obligations.ResultRegistersReadTheirFields :=
  fun s => ⟨busRead_reg s (k := 3) rfl, busRead_reg s (k := 6) rfl, busRead_reg s (k := 8) rfl,
    busRead_reg s (k := 13) rfl⟩

end Sys2Proof.Machine
end

/-! ## What a command leaves alone (10_state.md R39, R44 to R46, R52) -/

section
namespace Sys2Proof.Machine

/-- Addresses no command but ZEROIZE writes: HASH below CH, VA between CH and VB, and from ENT on (R66). -/
def InputAddress (a : Nat) : Prop := a < 0x300 ∨ 0x400 ≤ a ∧ a < 0x600 ∨ 0x5000 ≤ a

/-- `t` has the inputs of `s`: CMD, CTRL, OPW, the model's own fields, and the bytes at input addresses. -/
structure InputsKept (s t : State) : Prop where
  cmd : t.cmd = s.cmd
  ieDone : t.ieDone = s.ieDone
  ieErr : t.ieErr = s.ieErr
  mlock : t.mlock = s.mlock
  resets : t.resets = s.resets
  schedule : t.schedule = s.schedule
  replies : t.replies = s.replies
  opw : t.opw = s.opw
  bytes : ∀ a, InputAddress a → readByte t a = readByte s a

theorem InputsKept.refl (s : State) : InputsKept s s := by constructor <;> intros <;> rfl

theorem InputsKept.faultEntry (s : State) (c : ErrCode) (w : Word) : InputsKept s (faultEntry s c w) := by
  constructor <;> simp

section
variable {s t : State}

theorem InputsKept.complete (h : InputsKept s t) : InputsKept s (complete t) :=
  { h with }

theorem InputsKept.setRem (h : InputsKept s t) (r : Nat) : InputsKept s (setRem t r) :=
  { h with }

theorem InputsKept.setPlen (h : InputsKept s t) (n : Nat) : InputsKept s (setPlen t n) :=
  { h with }

theorem InputsKept.setPklen (h : InputsKept s t) (n : Nat) : InputsKept s (setPklen t n) :=
  { h with }

theorem InputsKept.setWeight (h : InputsKept s t) (n : Nat) : InputsKept s (setWeight t n) :=
  { h with }

theorem InputsKept.writeBn (h : InputsKept s t) (d : BnSel) (xs : List Word) :
    InputsKept s (writeBn t d xs) := by
  cases d with
  | bna => exact { h with }
  | bnb => exact { h with }

/-- A block at the start of a buffer keeps the inputs when it lies between them: in CH and its gap, or from
VB to the end of PK's gap (R66). -/
theorem InputsKept.writeBuf (h : InputsKept s t) {b : Buf} {n : Nat} (f : Nat → Byte)
    (hn : b = .ch ∧ n ≤ 0x100 ∨ 0x600 ≤ bufBase b ∧ bufBase b + n ≤ 0x5000) :
    InputsKept s (writeBuf t b n f) where
  __ := h
  bytes a ha := by
    have hout : ¬(bufBase b ≤ a ∧ a < bufBase b + n) := by
      unfold InputAddress at ha
      rcases hn with ⟨rfl, hn⟩ | hn
      · simp only [bufBase]
        omega
      · omega
    rw [readByte_writeBuf, if_neg hout, h.bytes a ha]

theorem InputsKept.writeSig (h : InputsKept s t) {n : Nat} (f : Nat → Half) (hn : n ≤ 0x2000) :
    InputsKept s (writeSig t n f) :=
  h.writeBuf _ (.inr ⟨by decide, by simp only [bufBase]; omega⟩)

theorem InputsKept.writeBits (h : InputsKept s t) {b : Buf} {n : Nat} (g : Nat → Bool)
    (hb : b = .vb ∨ b = .sy) (hn : n ≤ 0x1000) : InputsKept s (writeBits t b n g) := by
  refine h.writeBuf _ (.inr ?_)
  rcases hb with rfl | rfl <;> simp only [bufBase, bitBytes] <;> omega

end

/-- Every command but ZEROIZE keeps the inputs, in every state: also lengths above the legal ones do not
reach past PK (R52). -/
theorem exec_keeps_inputs {i : Instr} {s t : State} (h : exec i s = .next t) (hi : i ≠ .zeroize) :
    InputsKept s t := by
  have hplen := s.plen.isLt
  have hpklen := s.pklen.isLt
  have hs := InputsKept.refl s
  rcases exec_cases i s with ⟨code, info, e⟩ | ⟨w, e, hw⟩
  · obtain rfl : faultEntry s code info = t := by simpa [e] using h
    exact .faultEntry s code info
  · obtain rfl : complete w = t := by simpa [e] using h
    refine InputsKept.complete ?_
    rcases hw with ⟨-, rfl⟩ | ⟨rfl, -⟩ | ⟨-, f, rfl⟩ | ⟨-, g, rfl⟩ | ⟨-, rfl⟩ | ⟨-, rfl⟩ |
      ⟨v, -, rfl⟩ | ⟨-, -, rfl⟩ | ⟨d, xs, -, -, rfl⟩ | ⟨d, src, -, -, rfl⟩ | ⟨-, rfl⟩
    · exact hs
    · exact absurd rfl hi
    · exact hs.writeSig f (by omega)
    · exact hs.writeBits g (.inl rfl) (by omega)
    · exact (hs.writeBuf _ (.inr ⟨by decide, by simp only [bufBase]; omega⟩)).setPklen _
    · exact (hs.writeSig _ (by omega)).setPlen _
    · exact hs.setWeight _
    · exact hs.writeBits _ (.inr rfl) (by decide)
    · exact hs.writeBn d xs
    · exact (hs.writeBn d _).setRem _
    · exact ((hs.writeBuf _ (.inl ⟨rfl, by decide⟩)).writeBn .bna _).setRem _

/-- No buffer ZEROIZE clears reaches into HM (R50, R173). -/
theorem bufByte_hm_zeroized (s : State) (o : Nat) :
    bufByte (zeroized s) .hm o = bufByte s .hm o := by
  have hout : ¬ ∃ b ∈ secretBufs, bufBase b ≤ bufBase .hm + o ∧ bufBase .hm + o < bufBase b + bufSize b := by
    have hend : ∀ b ∈ secretBufs, bufBase b + bufSize b ≤ bufBase .hm := by decide
    rintro ⟨b, hb, -, hlt⟩
    have := hend b hb
    omega
  unfold bufByte
  rw [readByte_of_clearBufs (s := s) (t := zeroized s) (bs := secretBufs) rfl rfl, if_neg hout]

/-- No command writes CMD, CTRL, HM or the model's own fields (R45, R52). -/
theorem exec_keeps_control_and_matrix {i : Instr} {s t : State} (h : exec i s = .next t) :
    t.cmd = s.cmd ∧ t.ieDone = s.ieDone ∧ t.ieErr = s.ieErr ∧ t.mlock = s.mlock ∧
      t.resets = s.resets ∧ t.schedule = s.schedule ∧ t.replies = s.replies ∧
      ∀ o, bufByte t .hm o = bufByte s .hm o := by
  by_cases hi : i = .zeroize
  · obtain rfl : complete (zeroized s) = t := by simpa [hi, exec_zeroize, execZeroize] using h
    exact ⟨rfl, rfl, rfl, rfl, rfl, rfl, rfl, bufByte_hm_zeroized s⟩
  · obtain ⟨hcmd, hieDone, hieErr, hmlock, hresets, hschedule, hreplies, -, hbytes⟩ :=
      exec_keeps_inputs h hi
    refine ⟨hcmd, hieDone, hieErr, hmlock, hresets, hschedule, hreplies, fun o => hbytes _ ?_⟩
    unfold InputAddress
    simp only [bufBase]
    omega

/-- An element of ENT reads the same when its four bytes do (R69). -/
theorem entAt_congr {s t : State} {j : Nat} (h : ∀ o, bufByte t .ent o = bufByte s .ent o) :
    entAt t j = entAt s j := by
  simp only [entAt, h]

/-- Settles O10: ZEROIZE apart, every command keeps what stands at the input addresses. -/
theorem commandsLeaveTheirInputsAlone : Obligations.CommandsLeaveTheirInputsAlone := by
  intro i s t h
  obtain ⟨hcmd, hieDone, hieErr, hmlock, hresets, hschedule, hreplies, hhm⟩ :=
    exec_keeps_control_and_matrix h
  refine ⟨hcmd, hieDone, hieErr, hmlock, hresets, hschedule, hreplies, fun o _ => hhm o, fun hi => ?_⟩
  have hk := exec_keeps_inputs h hi
  refine ⟨hk.opw, fun o ho => hk.bytes _ ?va, fun o ho => hk.bytes _ ?hash,
    fun j _ => entAt_congr fun o => hk.bytes _ ?ent⟩
  all_goals
    unfold InputAddress
    simp only [bufBase]
    omega

/-! ## The locked matrix (10_state.md R29, R45) -/

/-- MLOCK is set and HM holds the same bytes in `t` as in `s`. -/
def MatrixKept (s t : State) : Prop :=
  t.mlock = true ∧ ∀ o, bufByte t .hm o = bufByte s .hm o

theorem completeCommand_keeps_matrix {s t : State} (h : completeCommand s = .next t)
    (hl : s.mlock = true) : MatrixKept s t := by
  unfold completeCommand at h
  split at h
  · obtain ⟨-, -, -, hmlock, -, -, -, hhm⟩ := exec_keeps_control_and_matrix h
    exact ⟨hmlock.trans hl, hhm⟩
  · obtain rfl : faultEntry s .illCmd s.cmd = t := by simpa [execIllegal] using h
    exact ⟨hl, fun o => readByte_faultEntry s _ _ _⟩

theorem engineTurn_keeps_matrix {s t : State} (h : engineTurn s = .next t) (hl : s.mlock = true) :
    MatrixKept s t := by
  unfold engineTurn at h
  split at h
  · exact completeCommand_keeps_matrix h hl
  · obtain rfl : s = t := by simpa using h
    exact ⟨hl, fun _ => rfl⟩

/-- HM is not writable while it is locked, and its region lies above those of all other buffers (R65, R66). -/
theorem bufByte_hm_storeWord {s : State} (hl : s.mlock = true) {b : Buf} {q : Nat}
    (hb : bufWritable s b = true) (hq : 4 * q < bufSize b) (v : Word) (o : Nat) :
    bufByte (storeWord s b q v) .hm o = bufByte s .hm o := by
  have hend : bufBase b + bufSize b ≤ bufBase .hm := by
    cases b with
    | hm => simp [bufWritable, hl] at hb
    | _ => decide
  unfold bufByte
  rw [readByte_storeWord s b q v hq, if_neg (by omega)]

theorem busWrite_keeps_matrix {s t : State} {addr : BitVec 19} {width : Width} {v : Word}
    (h : busWrite s addr width v = some t) (hl : s.mlock = true) : MatrixKept s t := by
  rcases busWrite_cases h with ⟨-, -, rfl⟩ | ⟨-, -, rfl⟩ | ⟨-, -, rfl⟩ | ⟨-, rfl⟩ | ⟨-, -, rfl⟩ |
    ⟨-, -, rfl⟩ | ⟨-, -, rfl⟩ | ⟨-, -, rfl⟩ | ⟨-, d, i, -, rfl⟩ | ⟨-, b, q, hb, hq, rfl⟩
  · exact ⟨hl, fun _ => rfl⟩
  · exact ⟨by simpa using hl, fun o => readByte_writeStatus s v _⟩
  · exact ⟨by simp [hl], fun _ => rfl⟩
  · exact ⟨hl, fun _ => rfl⟩
  · exact ⟨hl, fun _ => rfl⟩
  · exact ⟨hl, fun _ => rfl⟩
  · exact ⟨hl, fun _ => rfl⟩
  · exact ⟨hl, fun _ => rfl⟩
  · exact ⟨by simpa using hl, fun o => readByte_setBnWord s d i v _⟩
  · exact ⟨hl, bufByte_hm_storeWord hl hb hq v⟩

theorem writeEvent_keeps_matrix {s : State} (addr : BitVec 19) (width : Width) (v : Word)
    (hl : s.mlock = true) : MatrixKept s (writeEvent s addr width v) := by
  unfold writeEvent
  split
  · exact ⟨hl, fun _ => rfl⟩
  · next t ht =>
    obtain ⟨hm, hhm⟩ := busWrite_keeps_matrix ht hl
    exact ⟨hm, hhm⟩

theorem perform_keeps_matrix {s t : State} {e : Event} (h : perform s e = .next t) (hl : s.mlock = true)
    (he : e ≠ .reset) : MatrixKept s t := by
  cases e with
  | read addr width =>
    obtain rfl : readEvent s addr width = t := by simpa [perform] using h
    exact ⟨hl, fun _ => rfl⟩
  | write addr width v =>
    obtain rfl : writeEvent s addr width v = t := by simpa [perform] using h
    exact writeEvent_keeps_matrix addr width v hl
  | reset => exact absurd rfl he
  | engine => exact engineTurn_keeps_matrix h hl

/-- Settles O36: no command writes CTRL or HM, and the host can neither clear MLOCK nor write HM under it. -/
theorem lockedMatrixIsFixedUntilReset : Obligations.LockedMatrixIsFixedUntilReset := by
  intro s t h hl hres
  cases hs : s.schedule with
  | nil =>
    rw [step_nil hs] at h
    obtain ⟨hm, hhm⟩ := engineTurn_keeps_matrix h hl
    exact ⟨hm, fun o _ => hhm o⟩
  | cons e rest =>
    rw [step_cons hs] at h
    have he : e ≠ .reset := by
      rintro rfl
      exact hres rest hs
    obtain ⟨hm, hhm⟩ := perform_keeps_matrix (s := setSchedule s rest) h hl he
    exact ⟨hm, fun o _ => hhm o⟩

end Sys2Proof.Machine
end

/-! ## The invariant (10_state.md R28 to R36, R47, R51) -/

section
namespace Sys2Proof.Machine

/-! ### Reset -/

/-- With no byte listed, every byte below HM reads 0 (R51). -/
theorem readByte_eq_zero_of_mem_nil {s : State} (h : s.mem = []) {a : Nat} (ha : a < bufBase .hm) :
    readByte s a = 0 := by
  simp [readByte, h, Memory.get, background, Nat.not_le.2 ha]

theorem bufByte_eq_zero_of_mem_nil {s : State} (h : s.mem = []) {b : Buf} (hb : b ≠ .hm) {o : Nat}
    (ho : o < bufSize b) : bufByte s b o = 0 := by
  have hend : bufBase b + bufSize b ≤ bufBase .hm := by
    cases b with
    | hm => exact absurd rfl hb
    | _ => decide
  exact readByte_eq_zero_of_mem_nil h (by omega)

/-- Settles O32: the fields are constants, and with no byte listed every buffer below HM reads 0. -/
theorem resetStateHasTheListedValues : Obligations.ResetStateHasTheListedValues := by
  refine ⟨rfl, by decide, by decide, rfl, rfl, rfl, rfl, rfl, rfl, rfl, rfl, fun d w hw => ?_,
    fun b hb o ho => bufByte_eq_zero_of_mem_nil rfl hb ho, rfl⟩
  cases d with
  | bna => simpa [bnArray, State.reset] using hw
  | bnb => simpa [bnArray, State.reset] using hw

/-- With no byte listed every digit of CH is 0 (R47, R51). -/
theorem chAt_lt_of_mem_nil {s : State} (h : s.mem = []) {i : Nat} (hi : i < 219) : chAt s i < 3 := by
  have h0 : bufByte s .ch i = 0 := bufByte_eq_zero_of_mem_nil h (by decide) hi
  simp [chAt, h0]

/-- Settles O33: memory lists no byte and every register is a constant. -/
theorem resetSatisfiesTheInvariant : Obligations.ResetSatisfiesTheInvariant where
  memWf := reset_mem_wf
  memMapped _ hc := absurd hc List.not_mem_nil
  lenALe := by decide
  lenBLe := by decide
  plenLe := by decide
  pklenLe := by decide
  weightLe := by decide
  remLt := by decide
  chDigits _ hi := chAt_lt_of_mem_nil rfl hi
  noRecord _ := ⟨rfl, rfl⟩
  record h := absurd h Bool.false_ne_true
  busyNotDone _ := rfl
  busyErr h := absurd h Bool.false_ne_true

/-- A reset in any state, whatever its number and the model's own lists, gives the invariant (R210). -/
theorem Inv.resetEvent (s : State) : Inv (resetEvent s) :=
  { resetSatisfiesTheInvariant with chDigits := fun _ hi => chAt_lt_of_mem_nil rfl hi }

/-! ### One rule per state operation -/

/-- The codes of the fault classes (R181). -/
theorem errNum_range (c : ErrCode) : 1 ≤ (errNum c).toNat ∧ (errNum c).toNat ≤ 6 := by
  cases c <;> decide

section
variable {s : State} (h : Inv s)
include h

theorem Inv.setSchedule (es : List Event) : Inv (setSchedule s es) := { h with }

theorem Inv.answer (r : Reply) : Inv (answer s r) := { h with }

theorem Inv.complete : Inv (complete s) where
  __ := h
  busyNotDone hb := absurd hb Bool.false_ne_true
  busyErr hb := absurd hb Bool.false_ne_true

/-- Fault entry records one of the codes 1 to 6 (R181, R183). -/
theorem Inv.faultEntry (c : ErrCode) (w : Word) : Inv (faultEntry s c w) where
  __ := h
  noRecord he := absurd he.symm Bool.false_ne_true
  record _ := errNum_range c
  busyNotDone hb := absurd hb Bool.false_ne_true
  busyErr hb := absurd hb Bool.false_ne_true

/-- Acceptance clears DONE, and in FAULT it takes the ZEROIZE word only (R171). -/
theorem Inv.accept {v : Word} (hv : s.err = false ∨ v = 1) : Inv (accept s v) where
  __ := h
  busyNotDone _ := rfl
  busyErr _ he := hv.resolve_left (by simpa using he)

theorem Inv.acknowledge : Inv (acknowledge s) := by
  unfold Machine.acknowledge
  split
  · exact
      { h with
        noRecord := fun _ => ⟨rfl, rfl⟩
        record := fun he => absurd he Bool.false_ne_true
        busyErr := fun _ he => absurd he Bool.false_ne_true }
  · exact h

theorem Inv.clearDone : Inv { s with done := false } := { h with busyNotDone := fun _ => rfl }

theorem Inv.writeStatus (v : Word) : Inv (writeStatus s v) := by
  unfold Machine.writeStatus
  cases v.getLsbD 2 <;> cases v.getLsbD 1
  · exact h
  · exact h.clearDone
  · exact h.acknowledge
  · exact h.acknowledge.clearDone

theorem Inv.writeCtrl (v : Word) : Inv (writeCtrl s v) := { h with }

theorem Inv.setRem {r : Nat} (hr : r < 3) : Inv (setRem s r) where
  __ := h
  remLt := by rwa [setRem_rem_toNat s (by omega)]

theorem Inv.setPlen {n : Nat} (hn : n ≤ 2896) : Inv (setPlen s n) where
  __ := h
  plenLe := by rwa [setPlen_plen_toNat s (by omega)]

theorem Inv.setPklen {n : Nat} (hn : n ≤ 4344) : Inv (setPklen s n) where
  __ := h
  pklenLe := by rwa [setPklen_pklen_toNat s (by omega)]

theorem Inv.setWeight {n : Nat} (hn : n ≤ 2896) : Inv (setWeight s n) where
  __ := h
  weightLe := by rwa [setWeight_weight_toNat s (by omega)]

theorem Inv.writeBn {d : BnSel} {xs : List Word} (hx : xs.length ≤ bnCap d) : Inv (writeBn s d xs) := by
  obtain ⟨hA, hB⟩ := writeBn_lens s d xs hx h.lenALe h.lenBLe
  cases d with
  | bna => exact { h with lenALe := hA, lenBLe := hB }
  | bnb => exact { h with lenALe := hA, lenBLe := hB }

theorem Inv.setBnWord (d : BnSel) (i : Nat) (v : Word) : Inv (setBnWord s d i v) := by
  cases d with
  | bna => exact { h with }
  | bnb => exact { h with }

/-- A block written inside one buffer; in CH it must consist of digits (R47). -/
theorem Inv.patchBuf {b : Buf} {k n : Nat} {f : Nat → Byte} (hn : k + n ≤ bufSize b)
    (hf : b = .ch → ∀ o, (f o).toNat < 3) : Inv { s with mem := s.mem.patch (bufBase b + k) n f } := by
  refine { h with
    memWf := Memory.wf_patch h.memWf _ _ _, memMapped := fun c hc => ?_, chDigits := fun i hi => ?_ }
  · rcases Memory.mem_patch hc with hold | hin
    · exact h.memMapped c hold
    · exact ⟨b, by cases b <;> decide, by omega, by omega⟩
  · have hold := h.chDigits i hi
    unfold chAt bufByte at hold ⊢
    rw [readByte_patch (s := s) (t := { s with mem := s.mem.patch (bufBase b + k) n f }) rfl rfl]
    split
    · next hin =>
      refine hf ?_ _
      revert hin hn
      cases b <;> simp only [bufBase, bufSize, reduceCtorEq, imp_false, implies_true] <;> omega
    · exact hold

theorem Inv.writeBuf {b : Buf} {n : Nat} {f : Nat → Byte} (hn : n ≤ bufSize b)
    (hf : b = .ch → ∀ o, (f o).toNat < 3) : Inv (writeBuf s b n f) :=
  h.patchBuf (k := 0) (by omega) hf

theorem Inv.writeSig {n : Nat} (hn : n ≤ 2896) (f : Nat → Half) : Inv (writeSig s n f) :=
  h.writeBuf (by simp only [bufSize]; omega) (by simp)

theorem Inv.writeBits {b : Buf} {n : Nat} (hn : bitBytes n ≤ bufSize b) (hb : b ≠ .ch) (g : Nat → Bool) :
    Inv (writeBits s b n g) :=
  h.writeBuf hn fun hch => absurd hch hb

/-- The host writes no pad byte, and CH is not writable (R65, R68). -/
theorem Inv.storeWord {b : Buf} {q : Nat} (hb : bufWritable s b = true) (hq : 4 * q < bufSize b)
    (v : Word) : Inv (storeWord s b q v) :=
  h.patchBuf (by omega) (by rintro rfl; simp [bufWritable] at hb)

/-- ZEROIZE clears CH to zero digits and the lengths, REM and WEIGHT to 0 (R173). -/
theorem Inv.zeroized : Inv (zeroized s) where
  __ := h
  memWf := Memory.wf_clearBufs h.memWf _
  memMapped c hc := h.memMapped c (Memory.mem_clearBufs hc)
  lenALe := Nat.zero_le _
  lenBLe := Nat.zero_le _
  weightLe := Nat.zero_le _
  remLt := Nat.zero_lt_succ _
  chDigits i hi := by
    have hin : ∃ b ∈ secretBufs, bufBase b ≤ bufBase .ch + i ∧ bufBase .ch + i < bufBase b + bufSize b :=
      ⟨.ch, by decide, Nat.le_add_right _ _, Nat.add_lt_add_left hi _⟩
    have hbg : background (bufBase .ch + i) = some 0 :=
      if_neg (by simp only [bufBase]; omega)
    unfold chAt bufByte
    rw [readByte_of_clearBufs (s := s) (t := Machine.zeroized s) (bs := secretBufs) rfl rfl, if_pos hin,
      hbg, Option.getD_some]
    decide

end

/-! ### One rule per event -/

/-- Every command keeps the invariant (R33 to R36, R47, R52). -/
theorem Inv.exec {i : Instr} {s t : State} (h : Inv s) (he : exec i s = .next t) : Inv t := by
  have hplen := h.plenLe
  have hpklen := h.pklenLe
  rcases exec_cases i s with ⟨code, info, e⟩ | ⟨w, e, hw⟩
  · obtain rfl : Machine.faultEntry s code info = t := by simpa [e] using he
    exact h.faultEntry code info
  · obtain rfl : Machine.complete w = t := by simpa [e] using he
    refine Inv.complete ?_
    rcases hw with ⟨-, rfl⟩ | ⟨-, rfl⟩ | ⟨-, f, rfl⟩ | ⟨-, g, rfl⟩ | ⟨-, rfl⟩ | ⟨-, rfl⟩ |
      ⟨v, -, rfl⟩ | ⟨-, -, rfl⟩ | ⟨d, xs, -, hx, rfl⟩ | ⟨d, src, -, hx, rfl⟩ | ⟨-, rfl⟩
    · exact h
    · exact h.zeroized
    · exact h.writeSig hplen f
    · exact h.writeBits (by simp only [bitBytes, bufSize]; omega) (by decide) g
    · exact (h.writeBuf (by simp only [bufSize]; omega) (by simp)).setPklen (by omega)
    · exact (h.writeSig (by omega) _).setPlen (by omega)
    · exact h.setWeight (hammingWeight_le s _)
    · exact h.writeBits (by decide) (by decide) _
    · exact h.writeBn hx
    · exact (h.writeBn hx).setRem (divLoop_rem_lt _)
    · have hq : (quotLoop 219 (chalWords s)).length ≤ bnCap .bna :=
        (quotLoop_length_le _ _).trans (chalWords_length_le s)
      have hch : Inv (Machine.writeBuf s .ch 219 (chalByte s)) :=
        h.writeBuf (by decide) fun _ => chalByte_lt s
      exact (hch.writeBn hq).setRem (chalRem_lt h.remLt)

theorem Inv.engineTurn {s t : State} (h : Inv s) (he : engineTurn s = .next t) : Inv t := by
  unfold Machine.engineTurn completeCommand at he
  split at he
  · split at he
    · exact h.exec he
    · obtain rfl : Machine.faultEntry s .illCmd s.cmd = t := by simpa [execIllegal] using he
      exact h.faultEntry _ _
  · obtain rfl : s = t := by simpa using he
    exact h

/-- Narrowing a number to a field never makes it larger. -/
theorem toNat_setWidth_le_of_le {v : Word} {w n : Nat} (h : v.toNat ≤ n) : (v.setWidth w).toNat ≤ n := by
  rw [BitVec.toNat_setWidth]
  exact (Nat.mod_le _ _).trans h

/-- Every host write answered OKAY keeps the invariant: the length registers take legal values only (R33 to
R35, R65). -/
theorem Inv.busWrite {s t : State} {addr : BitVec 19} {width : Width} {v : Word} (h : Inv s)
    (hw : busWrite s addr width v = some t) : Inv t := by
  rcases busWrite_cases hw with ⟨-, hv, rfl⟩ | ⟨-, -, rfl⟩ | ⟨-, -, rfl⟩ | ⟨-, rfl⟩ | ⟨-, hv, rfl⟩ |
    ⟨-, hv, rfl⟩ | ⟨-, hv, rfl⟩ | ⟨-, hv, rfl⟩ | ⟨-, d, i, -, rfl⟩ | ⟨-, b, q, hb, hq, rfl⟩
  · exact h.accept hv
  · exact h.writeStatus v
  · exact h.writeCtrl v
  · exact { h with }
  · exact { h with lenALe := toNat_setWidth_le_of_le hv }
  · exact { h with lenBLe := toNat_setWidth_le_of_le hv }
  · exact { h with plenLe := toNat_setWidth_le_of_le hv }
  · exact { h with pklenLe := toNat_setWidth_le_of_le hv }
  · exact h.setBnWord d i v
  · exact h.storeWord hb hq v

theorem Inv.writeEvent {s : State} (h : Inv s) (addr : BitVec 19) (width : Width) (v : Word) :
    Inv (writeEvent s addr width v) := by
  unfold Machine.writeEvent
  split
  · exact h.answer _
  · next t ht => exact (h.busWrite ht).answer _

theorem Inv.perform {s t : State} {e : Event} (h : Inv s) (he : perform s e = .next t) : Inv t := by
  cases e with
  | read addr width =>
    obtain rfl : readEvent s addr width = t := by simpa [Machine.perform] using he
    exact h.answer _
  | write addr width v =>
    obtain rfl : Machine.writeEvent s addr width v = t := by simpa [Machine.perform] using he
    exact h.writeEvent addr width v
  | reset =>
    obtain rfl : Machine.resetEvent s = t := by simpa [Machine.perform] using he
    exact .resetEvent s
  | engine => exact h.engineTurn he

/-- Settles O34: the next event, or the engine's turn when none is to come, keeps the invariant. -/
theorem everyStepKeepsTheInvariant : Obligations.EveryStepKeepsTheInvariant := by
  intro s t h hstep
  cases hs : s.schedule with
  | nil =>
    rw [step_nil hs] at hstep
    exact h.engineTurn hstep
  | cons e rest =>
    rw [step_cons hs] at hstep
    exact (h.setSchedule rest).perform hstep

end Sys2Proof.Machine
end

/-! ## Which accesses the bus takes (20_memory.md sections 1 to 3) -/

section
namespace Sys2Proof.Machine

/-! ### From an address to its target (R61, R63, R66) -/

theorem target_not_word {width : Width} (h : width ≠ .word) (addr : BitVec 19) : target addr width = none :=
  if_neg fun hc => h hc.1

theorem target_not_aligned {addr : BitVec 19} (h : addr.toNat % 4 ≠ 0) (width : Width) :
    target addr width = none :=
  if_neg fun hc => h hc.2

/-- The first 14 words of the address space, and no others, are registers (R23, R66). -/
theorem exists_locate_eq_reg_iff {a : Nat} : (∃ r, locate a = some (.reg r)) ↔ a < 0x38 := by
  refine ⟨fun ⟨r, hr⟩ => (locate_eq_reg hr).1, fun h => ?_⟩
  have hlen : a / 4 < regMap.length := by
    rw [show regMap.length = 14 from rfl]
    omega
  exact ⟨regMap[a / 4], by rw [locate_of_lt h, List.getElem?_eq_getElem hlen, Option.map_some]⟩

/-- An aligned address in a buffer's region is one of the buffer's words. -/
theorem locate_in_bufSpan {a : Nat} {b : Buf} (h4 : a % 4 = 0) (hlo : bufBase b ≤ a)
    (hhi : a < bufBase b + bufSpan b) : ∃ q, locate a = some (.buf b q) := by
  have hbase : bufBase b % 4 = 0 := by cases b <;> rfl
  obtain ⟨q, rfl⟩ : ∃ q, a = bufBase b + 4 * q := ⟨(a - bufBase b) / 4, by omega⟩
  exact ⟨q, locate_of_buf (by omega)⟩

theorem locate_bn_range {a i : Nat} {d : BnSel} (h : locate a = some (.bn d i)) :
    bnBase d ≤ a ∧ a < bnBase d + 4 * bnCap d := by
  unfold locate at h
  split at h
  · simp at h
  · split at h
    · next hr =>
      simp only [Option.some.injEq, Target.bn.injEq] at h
      obtain ⟨rfl, -⟩ := h
      exact hr
    · split at h
      · next hr =>
        simp only [Option.some.injEq, Target.bn.injEq] at h
        obtain ⟨rfl, -⟩ := h
        exact hr
      · simp at h

/-- The region of rule R66 that a target belongs to, as the addresses of its first and last bytes. -/
def targetRegion : Target → Nat × Nat
  | .reg _ => (0x00, 0x37)
  | .bn d _ => (bnBase d, bnBase d + 4 * bnCap d - 1)
  | .buf b _ => (bufBase b, bufBase b + bufSpan b - 1)

/-- The twelve regions of rule R66, each as the addresses of its first and last bytes. -/
def busRegions : List (Nat × Nat) :=
  [(0x00000, 0x00037), (0x00100, 0x0017F), (0x00180, 0x001BF), (0x00200, 0x0023F), (0x00300, 0x003DB),
    (0x00400, 0x0056B), (0x00600, 0x0076B), (0x00800, 0x008B7), (0x01000, 0x0269F), (0x03000, 0x040F7),
    (0x05000, 0x07D3F), (0x40000, 0x7FFC7)]

theorem targetRegion_mem_busRegions (tg : Target) : targetRegion tg ∈ busRegions := by
  cases tg with
  | reg r => exact List.mem_cons_self
  | bn d i => cases d <;> simp [targetRegion, busRegions, bnBase, bnCap, Config.capA, Config.capB]
  | buf b q => cases b <;> simp [targetRegion, busRegions, bufBase, bufSpan, bufSize]

theorem locate_mem_targetRegion {a : Nat} {tg : Target} (h : locate a = some tg) :
    (targetRegion tg).1 ≤ a ∧ a ≤ (targetRegion tg).2 := by
  cases tg with
  | reg r =>
    obtain ⟨hlt, -⟩ := locate_eq_reg h
    exact ⟨Nat.zero_le a, Nat.le_of_lt_succ hlt⟩
  | bn d i =>
    obtain ⟨hlo, hhi⟩ := locate_bn_range h
    exact ⟨hlo, Nat.le_sub_one_of_lt hhi⟩
  | buf b q =>
    obtain ⟨hlo, hhi, -⟩ := locate_eq_buf h
    exact ⟨hlo, Nat.le_sub_one_of_lt hhi⟩

/-- A buffer's word keeps its address on the 19-bit bus (R66). -/
theorem target_buf {b : Buf} {q : Nat} (h : 4 * q < bufSize b) :
    target (BitVec.ofNat 19 (bufBase b + 4 * q)) .word = some (.buf b q) := by
  have hbase : bufBase b % 4 = 0 := by cases b <;> rfl
  have hend : bufBase b + bufSize b ≤ 2 ^ 19 := by cases b <;> decide
  have ha : (BitVec.ofNat 19 (bufBase b + 4 * q)).toNat = bufBase b + 4 * q := by
    rw [BitVec.toNat_ofNat, Nat.mod_eq_of_lt (by omega)]
  rw [target_word (by omega), ha, locate_of_buf (by unfold bufSpan; omega)]

/-! ### From a target to the answer (R62, R64, R65) -/

theorem busRead_of_target {addr : BitVec 19} {width : Width} {tg : Target} (h : target addr width = some tg)
    (s : State) :
    busRead s addr width = if readAllowed s tg then .data (targetWord s tg) else .error := by
  unfold busRead
  rw [h]

theorem busWrite_of_target {addr : BitVec 19} {width : Width} {tg : Target} (h : target addr width = some tg)
    (s : State) (v : Word) : busWrite s addr width v = writeTarget s v tg := by
  unfold busWrite
  rw [h]

theorem busRead_of_target_none {addr : BitVec 19} {width : Width} (h : target addr width = none) (s : State) :
    busRead s addr width = .error := by
  unfold busRead
  rw [h]

theorem busWrite_of_target_none {addr : BitVec 19} {width : Width} (h : target addr width = none) (s : State)
    (v : Word) : busWrite s addr width v = none := by
  unfold busWrite
  rw [h]

theorem busRead_ne_error_iff {s : State} {addr : BitVec 19} {width : Width} :
    busRead s addr width ≠ .error ↔ ∃ tg, target addr width = some tg ∧ readAllowed s tg = true := by
  cases ht : target addr width with
  | none => simp [busRead_of_target_none ht]
  | some tg => simp [busRead_of_target ht]

/-- While BUSY the readable targets are the registers (R64). -/
theorem readAllowed_iff_of_busy {s : State} (hb : s.busy = true) (tg : Target) :
    readAllowed s tg = true ↔ ∃ r, tg = .reg r := by
  cases tg <;> simp [readAllowed, hb]

theorem busWrite_at_reg (s : State) {addr : BitVec 19} (v : Word) {k : Nat} {r : Reg}
    (ha : addr.toNat = 4 * k) (h : regMap[k]? = some r) : busWrite s addr .word v = writeReg s v r := by
  have haddr : addr = BitVec.ofNat 19 (4 * k) := by rw [← ha, BitVec.ofNat_toNat, BitVec.setWidth_eq]
  rw [haddr, busWrite_reg s v h]

/-- The acceptance rule (R171) as one condition. -/
theorem writeCmd_eq (s : State) (v : Word) :
    writeCmd s v = if s.busy = false ∧ (s.err = false ∨ v = 1) then some (accept s v) else none := by
  unfold writeCmd idle inFault
  cases s.busy <;> cases s.err <;> simp

/-- The check of a length register stops a value above the legal maximum (R33 to R35). -/
theorem refused_of_lt {α : Type} (busy : Bool) {n max : Nat} (hn : max < n) (x : α) :
    (if busy || decide (max < n) then none else some x) = none :=
  if_pos (by simp [hn])

/-- No write reaches the region of a buffer the host may not write (R65). -/
theorem busWrite_not_writable {s : State} {addr : BitVec 19} {b : Buf} (hw : bufWritable s b = false)
    (hlo : bufBase b ≤ addr.toNat) (hhi : addr.toNat < bufBase b + bufSpan b) (v : Word) :
    busWrite s addr .word v = none := by
  by_cases h4 : addr.toNat % 4 = 0
  · obtain ⟨q, hq⟩ := locate_in_bufSpan h4 hlo hhi
    rw [busWrite_of_target ((target_word h4).trans hq)]
    simp [writeTarget, hw]
  · exact busWrite_of_target_none (target_not_aligned h4 .word) s v

/-! ### Accepted writes -/

/-- While BUSY a write answered OKAY is one to STATUS or to CTRL (R64). -/
theorem busWrite_of_busy {s t : State} {addr : BitVec 19} {width : Width} {v : Word} (hb : s.busy = true)
    (h : busWrite s addr width v = some t) :
    (addr.toNat = 0x10 ∧ t = writeStatus s v) ∨ (addr.toNat = 0x14 ∧ t = writeCtrl s v) := by
  rcases busWrite_cases h with ⟨hi, -⟩ | ⟨ha, -, ht⟩ | ⟨ha, -, ht⟩ | ⟨hi, -⟩ | ⟨hi, -⟩ | ⟨hi, -⟩ | ⟨hi, -⟩ |
    ⟨hi, -⟩ | ⟨hi, -⟩ | ⟨hi, -⟩
  case inr.inl => exact .inl ⟨ha, ht⟩
  case inr.inr.inl => exact .inr ⟨ha, ht⟩
  all_goals simp [hb] at hi

/-- A write to STATUS touches DONE and the fault record only (R28, R186). -/
theorem writeStatus_frame (s : State) (v : Word) :
    writeStatus s v = { s with done := (writeStatus s v).done, err := (writeStatus s v).err,
                               errCode := (writeStatus s v).errCode, errInfo := (writeStatus s v).errInfo } := by
  unfold writeStatus acknowledge
  cases v.getLsbD 2 <;> cases v.getLsbD 1 <;> cases s.err <;> rfl

/-- While BUSY a write changes at most DONE, the fault record and CTRL (R48, R64). -/
theorem busWrite_frame_of_busy {s t : State} {addr : BitVec 19} {width : Width} {v : Word}
    (hb : s.busy = true) (h : busWrite s addr width v = some t) :
    t = { s with done := t.done, err := t.err, errCode := t.errCode, errInfo := t.errInfo,
                 ieDone := t.ieDone, ieErr := t.ieErr, mlock := t.mlock } := by
  rcases busWrite_of_busy hb h with ⟨-, rfl⟩ | ⟨-, rfl⟩
  · rw [writeStatus_frame]
  · rfl

/-- The write itself records no response (R60). -/
theorem busWrite_replies {s t : State} {addr : BitVec 19} {width : Width} {v : Word}
    (h : busWrite s addr width v = some t) : t.replies = s.replies := by
  rcases busWrite_cases h with ⟨-, -, rfl⟩ | ⟨-, -, rfl⟩ | ⟨-, -, rfl⟩ | ⟨-, rfl⟩ | ⟨-, -, rfl⟩ |
    ⟨-, -, rfl⟩ | ⟨-, -, rfl⟩ | ⟨-, -, rfl⟩ | ⟨-, d, i, -, rfl⟩ | ⟨-, b, q, -, -, rfl⟩
  case inr.inl => exact writeStatus_replies s v
  case inr.inr.inr.inr.inr.inr.inr.inr.inl => exact setBnWord_replies s d i v
  all_goals rfl

/-! ### Words of buffers (R67, R68) -/

theorem bufWritable_of_mem {s : State} {b : Buf} (hb : b ∈ [Buf.hash, .va, .sig, .pk, .ent, .hm])
    (hm : b = .hm → s.mlock = false) : bufWritable s b = true := by
  cases b with
  | hm => simpa [bufWritable] using hm rfl
  | ch => simp at hb
  | vb => simp at hb
  | sy => simp at hb
  | _ => rfl

theorem busWrite_buf {s : State} {b : Buf} {q : Nat} (hb : s.busy = false) (hw : bufWritable s b = true)
    (hq : 4 * q < bufSize b) (v : Word) :
    busWrite s (BitVec.ofNat 19 (bufBase b + 4 * q)) .word v = some (storeWord s b q v) := by
  rw [busWrite_of_target (target_buf hq)]
  simp [writeTarget, hb, hw]

theorem busRead_buf {s : State} {b : Buf} {q : Nat} (hb : s.busy = false) (hq : 4 * q < bufSize b) :
    busRead s (BitVec.ofNat 19 (bufBase b + 4 * q)) .word = .data (bufWord s b q) := by
  rw [busRead_of_target (target_buf hq)]
  simp [readAllowed, hb, targetWord]

/-- Lane `k` of a buffer word is the byte the host sees at offset 4q + k (R67). -/
theorem wordByte_bufWord (s : State) (b : Buf) (q : Nat) {k : Nat} (hk : k < 4) :
    wordByte (bufWord s b q) k = hostByte s b (4 * q + k) := by
  obtain ⟨h0, h1, h2, h3⟩ := wordByte_wordOfBytes (hostByte s b (4 * q)) (hostByte s b (4 * q + 1))
    (hostByte s b (4 * q + 2)) (hostByte s b (4 * q + 3))
  match k, hk with
  | 0, _ => exact h0
  | 1, _ => exact h1
  | 2, _ => exact h2
  | 3, _ => exact h3

/-- The value of a byte the host sees: bits [1:0] of a digit of CH are its remainder by 4 (R47, R68). -/
theorem hostByte_toNat (s : State) (b : Buf) (o : Nat) :
    (hostByte s b o).toNat =
      if bufSize b ≤ o then 0 else if b = .ch then (bufByte s b o).toNat % 4 else (bufByte s b o).toNat := by
  have hmask : ∀ x : Byte, (x &&& 3).toNat = x.toNat % 4 := fun x =>
    (BitVec.toNat_and x 3).trans (Nat.and_two_pow_sub_one_eq_mod x.toNat 2)
  unfold hostByte
  split
  · rfl
  · split
    · exact hmask _
    · rfl

/-! ### The statements -/

/-- Settles O39: an access does not look at the schedule, so the answer is the one `s` itself gives. -/
theorem readsAndRefusedWritesChangeNothing : Obligations.ReadsAndRefusedWritesChangeNothing := by
  refine fun s addr width v rest => ⟨fun hs => ?_, fun hs hw => ?_⟩
  · rw [step_cons hs, perform, readEvent, busRead_setSchedule]
    rfl
  · rw [step_cons hs, perform, writeEvent, busWrite_setSchedule, hw]
    rfl

/-- Settles O40: the write sees `s` but for its schedule, and leaves the record of responses to the event. -/
theorem acceptedWriteTakesEffectAtOnce : Obligations.AcceptedWriteTakesEffectAtOnce := by
  intro s t addr width v rest hs hw
  rw [step_cons hs, perform, writeEvent, busWrite_setSchedule, hw, ← busWrite_replies hw]
  rfl

/-- Settles O38: a read and a refused write change nothing, and the writes accepted while BUSY are those to
STATUS and CTRL. -/
theorem nothingDisturbsARunningCommand : Obligations.NothingDisturbsARunningCommand := by
  intro s t e rest hb hs hengine hreset hstep
  cases e with
  | read addr width =>
    rw [(readsAndRefusedWritesChangeNothing s addr width 0 rest).1 hs, Host.Outcome.next.injEq] at hstep
    rw [← hstep]
  | write addr width v =>
    cases hw : busWrite s addr width v with
    | none =>
      rw [(readsAndRefusedWritesChangeNothing s addr width v rest).2 hs hw, Host.Outcome.next.injEq] at hstep
      rw [← hstep]
    | some u =>
      rw [acceptedWriteTakesEffectAtOnce s u addr width v rest hs hw, Host.Outcome.next.injEq] at hstep
      rw [← hstep, busWrite_frame_of_busy hb hw]
  | reset => exact absurd rfl hreset
  | engine => exact absurd rfl hengine

/-- Settles O41: a located address lies in the region of its target, which is one of the twelve of R66. -/
theorem onlyAlignedMappedWordsAreAccessible : Obligations.OnlyAlignedMappedWordsAreAccessible := by
  intro s addr width v h
  have ht : target addr width = none := by
    rcases h with hw | h4 | hout
    · exact target_not_word hw addr
    · exact target_not_aligned h4 width
    · refine Option.eq_none_iff_forall_ne_some.2 fun tg htg => ?_
      obtain ⟨-, -, hloc⟩ := target_eq_some htg
      exact hout (targetRegion tg) (targetRegion_mem_busRegions tg) (locate_mem_targetRegion hloc)
  exact ⟨busRead_of_target_none ht s, busWrite_of_target_none ht s v⟩

/-- Settles O42: while BUSY the readable targets are the registers, and the accepted writes those to STATUS
and CTRL. -/
theorem busyEngineAllowsRegisterReadsAndFlagWrites : Obligations.BusyEngineAllowsRegisterReadsAndFlagWrites := by
  refine fun s addr v hb h4 => ⟨?_, fun hw => ?_, ?_⟩
  · have hreg : busRead s addr .word ≠ .error ↔ ∃ r, locate addr.toNat = some (.reg r) := by
      simp only [busRead_ne_error_iff, target_word h4, readAllowed_iff_of_busy hb]
      exact ⟨fun ⟨_, hl, r, hr⟩ => ⟨r, hr ▸ hl⟩, fun ⟨r, hl⟩ => ⟨_, hl, r, rfl⟩⟩
    rw [hreg, exists_locate_eq_reg_iff]
    omega
  · obtain ⟨t, ht⟩ := Option.ne_none_iff_exists'.1 hw
    exact (busWrite_of_busy hb ht).imp And.left And.left
  · rintro (ha | ha)
    · rw [busWrite_at_reg s v (k := 4) ha rfl]
      exact Option.some_ne_none _
    · rw [busWrite_at_reg s v (k := 5) ha rfl]
      exact Option.some_ne_none _

/-- Settles O43, one kind of refusal at a time; above the last word of HM nothing is mapped (O41). -/
theorem readOnlyAndOutOfRangeWritesAreRefused : Obligations.ReadOnlyAndOutOfRangeWritesAreRefused := by
  rintro s addr v (hro | ⟨hlo, hhi⟩ | ⟨hlo, hhi⟩ | ⟨hlo, hhi⟩ | ⟨hl, hlo⟩ | ⟨ha, hv⟩ | ⟨ha, hv⟩ | ⟨ha, hv⟩ |
    ⟨ha, hv⟩ | ⟨ha, hc⟩)
  · simp only [List.mem_cons, List.not_mem_nil, or_false] at hro
    rcases hro with ha | ha | ha | ha | ha | ha
    · exact busWrite_at_reg s v (k := 0) ha rfl
    · exact busWrite_at_reg s v (k := 1) ha rfl
    · exact busWrite_at_reg s v (k := 2) ha rfl
    · exact busWrite_at_reg s v (k := 6) ha rfl
    · exact busWrite_at_reg s v (k := 8) ha rfl
    · exact busWrite_at_reg s v (k := 13) ha rfl
  · exact busWrite_not_writable (b := .ch) rfl hlo (Nat.lt_succ_of_le hhi) v
  · exact busWrite_not_writable (b := .vb) rfl hlo (Nat.lt_succ_of_le hhi) v
  · exact busWrite_not_writable (b := .sy) rfl hlo (Nat.lt_succ_of_le hhi) v
  · by_cases hhi : addr.toNat < 0x7FFC8
    · exact busWrite_not_writable (b := .hm) (by simp [bufWritable, hl]) hlo hhi v
    · refine (onlyAlignedMappedWordsAreAccessible s addr .word v (.inr (.inr fun r hr => ?_))).2
      have hlast : ∀ r ∈ busRegions, r.2 < 0x7FFC8 := by decide
      have := hlast r hr
      omega
  · exact (busWrite_at_reg s v (k := 9) ha rfl).trans (refused_of_lt _ hv _)
  · exact (busWrite_at_reg s v (k := 10) ha rfl).trans (refused_of_lt _ hv _)
  · exact (busWrite_at_reg s v (k := 11) ha rfl).trans (refused_of_lt _ hv _)
  · exact (busWrite_at_reg s v (k := 12) ha rfl).trans (refused_of_lt _ hv _)
  · exact (busWrite_at_reg s v (k := 3) ha rfl).trans ((writeCmd_eq s v).trans (if_neg hc))

/-- Settles O50: the accepted write is `storeWord`, whose bytes `readByte_storeWord` gives. -/
theorem bufferWriteStoresLittleEndianBytes : Obligations.BufferWriteStoresLittleEndianBytes := by
  intro s b q v hb hmem hm hq
  refine ⟨storeWord s b q v, busWrite_buf hb (bufWritable_of_mem hmem hm) hq v, fun k hk hsize => ?_,
    fun a ha => ?_, rfl⟩
  · unfold bufByte
    rw [readByte_storeWord s b q v hq, if_pos (by omega),
      show bufBase b + (4 * q + k) - (bufBase b + 4 * q) = k by omega]
    rfl
  · rw [readByte_storeWord s b q v hq, if_neg ha]

/-- Settles O51: each lane of the word read is the byte the host sees there. -/
theorem bufferReadReturnsLittleEndianBytes : Obligations.BufferReadReturnsLittleEndianBytes := by
  intro s b q hb hq
  refine ⟨bufWord s b q, busRead_buf hb hq, fun k hk => ?_⟩
  have hlane : (bufWord s b q).extractLsb' (8 * k) 8 = hostByte s b (4 * q + k) := wordByte_bufWord s b q hk
  rw [hlane, hostByte_toNat]

end Sys2Proof.Machine
end

/-! ## The command word and the opcode map (30_encoding.md) -/

section
namespace Sys2Proof

/-! ### The fields of a word (R91) -/

/-- rsv, bits [15:10]. -/
def rsvField (c : Word) : BitVec 6 := c.extractLsb' 10 6

@[simp] theorem opField_and (c m : Word) : opField (c &&& m) = opField c &&& opField m :=
  BitVec.extractLsb'_and

@[simp] theorem dField_and (c m : Word) : dField (c &&& m) = dField c &&& dField m :=
  BitVec.extractLsb'_and

@[simp] theorem sField_and (c m : Word) : sField (c &&& m) = sField c &&& sField m :=
  BitVec.extractLsb'_and

@[simp] theorem rsvField_and (c m : Word) : rsvField (c &&& m) = rsvField c &&& rsvField m :=
  BitVec.extractLsb'_and

@[simp] theorem immField_and (c m : Word) : immField (c &&& m) = immField c &&& immField m :=
  BitVec.extractLsb'_and

theorem rsvField_packFields (imm : BitVec 16) (s d : BitVec 1) (op : BitVec 8) :
    rsvField (packFields imm s d op) = 0 := by
  apply BitVec.eq_of_getLsbD_eq
  intro i hi
  simp only [rsvField, packFields, BitVec.getLsbD_extractLsb', BitVec.getLsbD_append]
  rw [if_neg (by omega), if_neg (by omega), if_neg (by omega), if_pos (by omega)]
  simp

/-- A word is its five fields side by side. -/
theorem fields_append (c : Word) : immField c ++ rsvField c ++ sField c ++ dField c ++ opField c = c := by
  simp only [immField, rsvField, sField, dField, opField,
    BitVec.extractLsb'_append_extractLsb'_eq_extractLsb', BitVec.extractLsb'_eq_self]

/-- A word whose reserved bits are 0 is made of its four other fields. -/
theorem eq_packFields {c : Word} (h : rsvField c = 0) :
    c = packFields (immField c) (sField c) (dField c) (opField c) := by
  unfold packFields
  rw [← h, fields_append]

/-! ### The selectors (R91) -/

theorem bnSelOf_bnBit (d : BnSel) : bnSelOf (bnBit d) = d := by cases d <;> rfl

theorem exists_bnBit_eq (b : BitVec 1) : ∃ d, bnBit d = b := by
  rcases BitVec.eq_zero_or_eq_one b with rfl | rfl
  exacts [⟨.bna, rfl⟩, ⟨.bnb, rfl⟩]

theorem exists_vecBitSel_eq (b : BitVec 1) : ∃ v, vecBitSel v = b := by
  rcases BitVec.eq_zero_or_eq_one b with rfl | rfl
  exacts [⟨.va, rfl⟩, ⟨.vb, rfl⟩]

/-! ### The masks of the map (R93) -/

/-- A mask that selects all of op works on each other field by itself. -/
theorem packFields_and {m : Word} (hop : opField m = BitVec.allOnes 8) (imm : BitVec 16) (s d : BitVec 1)
    (op : BitVec 8) : packFields imm s d op &&& m =
      packFields (imm &&& immField m) (s &&& sField m) (d &&& dField m) op := by
  have hrsv : rsvField (packFields imm s d op &&& m) = 0 := by
    rw [rsvField_and, rsvField_packFields]
    exact BitVec.zero_and
  rw [eq_packFields hrsv, immField_and, sField_and, dField_and, opField_and, immField_packFields,
    sField_packFields, dField_packFields, opField_packFields, hop, BitVec.and_allOnes]

/-- The words that match a row whose mask selects op and the reserved bits: zero wherever else the mask
selects. -/
theorem fields_of_match {c m : Word} {op : BitVec 8} (hop : opField m = BitVec.allOnes 8)
    (hrsv : rsvField m = BitVec.allOnes 6) (h : c &&& m = packFields 0 0 0 op) :
    ∃ imm s d, packFields imm s d op = c ∧ imm &&& immField m = 0 ∧ s &&& sField m = 0 ∧
      d &&& dField m = 0 := by
  have hc : rsvField c = 0 := by
    rw [← BitVec.and_allOnes (x := rsvField c), ← hrsv, ← rsvField_and, h, rsvField_packFields]
  have hcop : opField c = op := by
    rw [← BitVec.and_allOnes (x := opField c), ← hop, ← opField_and, h, opField_packFields]
  refine ⟨immField c, sField c, dField c, hcop ▸ (eq_packFields hc).symm, ?_, ?_, ?_⟩
  · rw [← immField_and, h, immField_packFields]
  · rw [← sField_and, h, sField_packFields]
  · rw [← dField_and, h, dField_packFields]

/-! ### The words of a row, format by format (R91, R93) -/

/-- `c` is the word of a well-formed instruction. -/
def IsCommandWord (c : Word) : Prop := ∃ i, wellFormed i = true ∧ encode i = c

section
variable {c : Word}

/-- Format Z: no field is free. -/
theorem isCommandWord_of_matchZ {i : Instr} (hi : wellFormed i = true) (h : c &&& 0xFFFFFFFF = encode i) :
    IsCommandWord c :=
  ⟨i, hi, h.symm.trans BitVec.and_allOnes⟩

/-- Format S: bit 9, the vector of PWT, is free. -/
theorem isCommandWord_of_matchS (h : c &&& 0xFFFFFDFF = 0x15) : IsCommandWord c := by
  obtain ⟨imm, s, d, rfl, himm, -, hd⟩ := fields_of_match (op := 0x15) rfl rfl h
  obtain rfl : imm = 0 := BitVec.and_allOnes.symm.trans himm
  obtain rfl : d = 0 := BitVec.and_allOnes.symm.trans hd
  obtain ⟨v, rfl⟩ := exists_vecBitSel_eq s
  exact ⟨.pwt v, rfl, rfl⟩

/-- Format D: bit 8, the destination, is free. -/
theorem isCommandWord_of_matchD {f : BnSel → Instr} {op : BitVec 8} (hi : ∀ d, wellFormed (f d) = true)
    (hf : ∀ d, encode (f d) = packFields 0 0 (bnBit d) op) (h : c &&& 0xFFFFFEFF = packFields 0 0 0 op) :
    IsCommandWord c := by
  obtain ⟨imm, s, d, rfl, himm, hs, -⟩ := fields_of_match rfl rfl h
  obtain rfl : imm = 0 := BitVec.and_allOnes.symm.trans himm
  obtain rfl : s = 0 := BitVec.and_allOnes.symm.trans hs
  obtain ⟨d, rfl⟩ := exists_bnBit_eq d
  exact ⟨f d, hi d, hf d⟩

/-- Format DS: bits 8 and 9 are free. -/
theorem isCommandWord_of_matchDS {f : BnSel → BnSel → Instr} {op : BitVec 8}
    (hi : ∀ d s, wellFormed (f d s) = true)
    (hf : ∀ d s, encode (f d s) = packFields 0 (bnBit s) (bnBit d) op)
    (h : c &&& 0xFFFFFCFF = packFields 0 0 0 op) : IsCommandWord c := by
  obtain ⟨imm, s, d, rfl, himm, -, -⟩ := fields_of_match rfl rfl h
  obtain rfl : imm = 0 := BitVec.and_allOnes.symm.trans himm
  obtain ⟨d, rfl⟩ := exists_bnBit_eq d
  obtain ⟨s, rfl⟩ := exists_bnBit_eq s
  exact ⟨f d s, hi d s, hf d s⟩

/-- Format DI: bit 8 and imm16 are free. -/
theorem isCommandWord_of_matchDI (h : c &&& 0x0000FEFF = 0x34) : IsCommandWord c := by
  obtain ⟨imm, s, d, rfl, -, hs, -⟩ := fields_of_match (op := 0x34) rfl rfl h
  obtain rfl : s = 0 := BitVec.and_allOnes.symm.trans hs
  obtain ⟨d, rfl⟩ := exists_bnBit_eq d
  refine ⟨.bnShrw d imm.toNat, decide_eq_true imm.isLt, ?_⟩
  rw [encode, BitVec.ofNat_toNat, BitVec.setWidth_eq]
  rfl

end

/-- Every word that matches a row of the map is the word of an instruction (R93). -/
theorem isCommandWord_of_match {c : Word} {r : OpRow} (hr : r ∈ opRows) (h : c &&& r.mask = r.pattern) :
    IsCommandWord c := by
  simp only [opRows, List.mem_cons, List.not_mem_nil, or_false] at hr
  rcases hr with rfl | rfl | rfl | rfl | rfl | rfl | rfl | rfl | rfl | rfl | rfl | rfl | rfl | rfl | rfl
  · exact isCommandWord_of_matchZ (i := .nop) rfl h
  · exact isCommandWord_of_matchZ (i := .zeroize) rfl h
  · exact isCommandWord_of_matchZ (i := .piota) rfl h
  · exact isCommandWord_of_matchZ (i := .pshuf) rfl h
  · exact isCommandWord_of_matchZ (i := .papply) rfl h
  · exact isCommandWord_of_matchZ (i := .ppack) rfl h
  · exact isCommandWord_of_matchZ (i := .punpk) rfl h
  · exact isCommandWord_of_matchS h
  · exact isCommandWord_of_matchZ (i := .syn) rfl h
  · exact isCommandWord_of_matchD (fun _ => rfl) (fun d => (rfl : encode (.bnLdh d) = _)) h
  · exact isCommandWord_of_matchD (fun _ => rfl) (fun d => (rfl : encode (.bnMulw d) = _)) h
  · exact isCommandWord_of_matchDS (fun _ _ => rfl) (fun d s => (rfl : encode (.bnDiv3 d s) = _)) h
  · exact isCommandWord_of_matchDS (fun _ _ => rfl) (fun d s => (rfl : encode (.bnCopy d s) = _)) h
  · exact isCommandWord_of_matchDI h
  · exact isCommandWord_of_matchZ (i := .chal) rfl h

/-! ### The decoder (R96) -/

/-- A word that matches the row of its op field is that row's command. -/
theorem decode_of_match {c : Word} {op : BitVec 8} {r : OpRow} (hop : opField c = op)
    (hr : opRows.find? (fun r => r.op == op) = some r) (h : c &&& r.mask = r.pattern) :
    decode c = .ok (r.build c) := by
  unfold decode
  rw [hop, hr]
  exact if_pos h

/-- A word that matches no row is illegal (R95). -/
theorem exists_decode_eq_error {c : Word} (h : ∀ r ∈ opRows, c &&& r.mask ≠ r.pattern) :
    ∃ e, decode c = .error e := by
  cases hd : decode c with
  | error e => exact ⟨e, rfl⟩
  | ok i =>
    obtain ⟨r, hr, -, hm, -⟩ := decode_eq_ok hd
    exact absurd hm (h r hr)

/-- The shift distance is read back from imm16, which holds every distance up to 65535 (R92). -/
theorem decode_encode_bnShrw (d : BnSel) {k : Nat} (hk : k < 65536) :
    decode (encode (.bnShrw d k)) = .ok (.bnShrw d k) := by
  have hmask : encode (.bnShrw d k) &&& 0x0000FEFF = 0x34 := by
    rw [encode, packFields_and rfl]
    cases d <;> exact congrArg (packFields · 0 0 0x34) BitVec.and_zero
  have hd : bnSelOf (dField (encode (.bnShrw d k))) = d := by
    rw [encode, dField_packFields, bnSelOf_bnBit]
  have himm : (immField (encode (.bnShrw d k))).toNat = k := by
    rw [encode, immField_packFields, BitVec.toNat_ofNat, Nat.mod_eq_of_lt hk]
  exact (decode_of_match (Laws.OpcodeField.bnShrw d k) rfl hmask).trans
    (congrArg Except.ok (congrArg₂ Instr.bnShrw hd himm))

/-! ### The statements -/

/-- Settles O1: a command without a shift distance has at most four words, one for each choice of its
selectors, and the decoder reads each of them; a shift distance is read back from its field. -/
theorem decodeOfEncodeIsIdentity : Obligations.DecodeOfEncodeIsIdentity := by
  intro i hi
  cases i with
  | bnShrw d k => exact decode_encode_bnShrw d (of_decide_eq_true hi)
  | pwt v => cases v <;> rfl
  | bnLdh d | bnMulw d => cases d <;> rfl
  | bnDiv3 d s | bnCopy d s => cases d <;> cases s <;> rfl
  | nop | zeroize | piota | pshuf | papply | ppack | punpk | syn | chal => rfl

/-- Settles O2: a word the decoder takes is the word of some command, and by O1 that command is the one the
decoder gives. -/
theorem encodeOfDecodeIsIdentity : Obligations.EncodeOfDecodeIsIdentity := by
  intro c i h
  obtain ⟨r, hr, -, hm, -⟩ := decode_eq_ok h
  obtain ⟨j, hj, rfl⟩ := isCommandWord_of_match hr hm
  obtain rfl : j = i := Except.ok.inj ((decodeOfEncodeIsIdentity j hj).symm.trans h)
  exact ⟨hj, rfl⟩

/-- Settles O3: each word of R98 is read by itself. -/
theorem specExampleWordsDecode : Obligations.SpecExampleWordsDecode :=
  ⟨rfl, rfl, rfl, rfl, rfl, rfl, rfl⟩

end Sys2Proof
end

/-! ## The completion of an illegal word (30_encoding.md R95, 45_control.md R170) -/

section
namespace Sys2Proof.Machine

/-- The turn of a BUSY engine whose CMD matches no row faults with E_ILLCMD and the word. -/
theorem engineTurn_of_illegal {s : State} (hb : s.busy = true)
    (h : ∀ r ∈ opRows, s.cmd &&& r.mask ≠ r.pattern) : engineTurn s = .next (faulted s 1 s.cmd) := by
  obtain ⟨e, he⟩ := exists_decode_eq_error h
  unfold engineTurn completeCommand
  rw [if_pos hb, he]
  rfl

/-- Settles O4: the word is accepted as any other is, and the engine's turn finds it illegal. -/
theorem illegalWordIsAcceptedAndFaults : Obligations.IllegalWordIsAcceptedAndFaults := by
  intro s v hb he hv
  have hill : ∀ r ∈ opRows, v &&& r.mask ≠ r.pattern := fun r hr =>
    hv _ (List.mem_map_of_mem (f := fun r : OpRow => (r.pattern, r.mask)) hr)
  have hw : busWrite s 0x0000C .word v = some (accept s v) :=
    (busWrite_at_reg s v (k := 3) rfl rfl).trans ((writeCmd_eq s v).trans (if_pos ⟨hb, .inl he⟩))
  refine ⟨accept s v, hw, rfl, fun hs => ?_, fun rest hs => ?_⟩
  · exact (step_nil (s := accept s v) hs).trans (engineTurn_of_illegal rfl hill)
  · exact (step_cons (s := accept s v) hs).trans
      (engineTurn_of_illegal (s := setSchedule (accept s v) rest) rfl hill)

end Sys2Proof.Machine
end

/-! ## The permutation and packer commands (41_permutation_packer.md) -/

section
namespace Sys2Proof.Machine

/-! ### Buffers under updates of registers, and outside a written block -/

@[simp] theorem bufByte_complete (s : State) (b : Buf) (o : Nat) : bufByte (complete s) b o = bufByte s b o :=
  bufByte_congr (readByte_complete s _)

@[simp] theorem bufBit_complete (s : State) (b : Buf) (i : Nat) : bufBit (complete s) b i = bufBit s b i :=
  bufBit_congr (bufByte_complete s b _)

@[simp] theorem sigAt_complete (s : State) (i : Nat) : sigAt (complete s) i = sigAt s i :=
  sigAt_congr (bufByte_complete s .sig _) (bufByte_complete s .sig _)

@[simp] theorem bufByte_setPklen (s : State) (n : Nat) (b : Buf) (o : Nat) :
    bufByte (setPklen s n) b o = bufByte s b o :=
  bufByte_congr (readByte_setPklen s n _)

@[simp] theorem bufByte_setPlen (s : State) (n : Nat) (b : Buf) (o : Nat) :
    bufByte (setPlen s n) b o = bufByte s b o :=
  bufByte_congr (readByte_setPlen s n _)

@[simp] theorem sigAt_setPlen (s : State) (n i : Nat) : sigAt (setPlen s n) i = sigAt s i :=
  sigAt_congr (bufByte_setPlen s n .sig _) (bufByte_setPlen s n .sig _)

/-- The frame of a write at the start of a buffer, for `writeSig` and `writeBits` too. -/
theorem readByte_writeBuf_of_outside (s : State) {b : Buf} {n a : Nat} (f : Nat → Byte)
    (h : ¬(bufBase b ≤ a ∧ a < bufBase b + n)) : readByte (writeBuf s b n f) a = readByte s a := by
  rw [readByte_writeBuf, if_neg h]

/-! ### PIOTA (R113) -/

/-- Settles O13: every index below PLEN, which has 12 bits, fits an element. -/
theorem piotaLoadsTheIdentity : Obligations.PiotaLoadsTheIdentity := by
  refine ⟨rfl, fun s => ⟨_, rfl, fun i hi => ?_, fun a ha => ?_, rfl⟩⟩
  · have hL : s.plen.toNat < 4096 := s.plen.isLt
    rw [sigAt_complete, sigAt_writeSig, if_pos (show i < plenVal s from hi), BitVec.toNat_ofNat]
    exact Nat.mod_eq_of_lt (by omega)
  · rw [readByte_complete]
    exact readByte_writeBuf_of_outside s _ ha

/-! ### PSHUF (R114) -/

/-- The low 16 bits of a key are the index it was made of. -/
theorem ofNat_shufKey (s : State) (i : Nat) : BitVec.ofNat 16 (shufKey s i) = sigAt s i := by
  apply BitVec.eq_of_toNat_eq
  have hlt : (sigAt s i).toNat < 65536 := (sigAt s i).isLt
  rw [BitVec.toNat_ofNat, shufKey]
  omega

theorem length_sortKeys_shufKeys (s : State) : (sortKeys (shufKeys s)).length = s.plen.toNat := by
  rw [(sortKeys_perm _).length_eq, shufKeys, List.length_map, List.length_range]
  rfl

/-- A list read element by element is the list. -/
theorem map_range_getD {α β : Type} (f : α → β) (l : List α) (d : α) :
    (List.range l.length).map (fun i => f (l.getD i d)) = l.map f := by
  apply List.ext_getElem
  · simp
  · intro i h₁ h₂
    have hi : i < l.length := by simpa using h₂
    simp [hi]

/-- The low halves of the sorted keys are the indices of before, in some order. -/
theorem map_sortKeys_perm (s : State) :
    ((sortKeys (shufKeys s)).map (BitVec.ofNat 16)).Perm ((List.range s.plen.toNat).map (sigAt s)) := by
  have hkeys : (shufKeys s).map (BitVec.ofNat 16) = (List.range s.plen.toNat).map (sigAt s) := by
    rw [shufKeys, List.map_map]
    exact List.map_congr_left fun i _ => ofNat_shufKey s i
  exact hkeys ▸ (sortKeys_perm (shufKeys s)).map _

/-- SIG[i] after PSHUF: the low half of the i-th smallest key. -/
theorem sigAt_execPshuf {s t : State} (ht : exec .pshuf s = .next t) {i : Nat} (hi : i < s.plen.toNat) :
    sigAt t i = BitVec.ofNat 16 ((sortKeys (shufKeys s)).getD i 0) := by
  obtain rfl := Host.Outcome.next.inj ht
  rw [sigAt_complete, sigAt_writeSig, if_pos (show i < plenVal s from hi)]

/-- Settles O14: `sortKeys` is a sorting function, and the low half of a key is its index. -/
theorem pshufSortsTheKeys : Obligations.PshufSortsTheKeys := by
  refine ⟨rfl, fun s => ⟨sortKeys (shufKeys s), _, rfl, sortKeys_perm _, sortKeys_sorted _,
    fun i hi => ?_, ?_, fun a ha => ?_, rfl⟩⟩
  · rw [sigAt_execPshuf rfl hi, BitVec.toNat_ofNat]
  · rw [List.map_congr_left fun i hi => sigAt_execPshuf rfl (List.mem_range.1 hi),
      ← length_sortKeys_shufKeys s, map_range_getD, length_sortKeys_shufKeys]
    exact map_sortKeys_perm s
  · rw [readByte_complete]
    exact readByte_writeBuf_of_outside s _ ha

/-! ### PAPPLY (R115) -/

/-- The state PAPPLY leaves when every index is in range. -/
def appliedState (s : State) : State :=
  complete (writeBits s .vb s.plen.toNat fun i => bufBit s .va (sigAt s i).toNat)

theorem exec_papply_of_inRange {s : State} (h : ∀ i < s.plen.toNat, (sigAt s i).toNat < s.plen.toNat) :
    exec .papply s = .next (appliedState s) := by
  have hnone : firstIndexFrom s (plenVal s) = none := firstIndexFrom_eq_none.2 h
  rw [exec_papply, execPapply, hnone]
  rfl

theorem exec_papply_of_outOfRange {s : State} {i : Nat} (hi : i < s.plen.toNat)
    (hbad : s.plen.toNat ≤ (sigAt s i).toNat) (hlow : ∀ j < i, (sigAt s j).toNat < s.plen.toNat) :
    exec .papply s = .next (faulted s 5 (BitVec.ofNat 32 i)) := by
  have hsome : firstIndexFrom s (plenVal s) = some i := firstIndexFrom_eq_some.2 ⟨hi, hbad, hlow⟩
  rw [exec_papply, execPapply, hsome]
  rfl

/-- The bits of VB after PAPPLY: permuted below PLEN, 0 in the pad bits, old beyond. -/
theorem bufBit_appliedState (s : State) (i : Nat) :
    bufBit (appliedState s) .vb i =
      if i < s.plen.toNat then bufBit s .va (sigAt s i).toNat
      else if i < 8 * bitBytes s.plen.toNat then false else bufBit s .vb i := by
  rw [appliedState, bufBit_complete, bufBit_writeBits]

/-- Settles O15: the search for an index out of range decides which end PAPPLY has. -/
theorem papplyPermutesBitsOrFaultsAtLowestIndex : Obligations.PapplyPermutesBitsOrFaultsAtLowestIndex := by
  refine ⟨rfl, fun s h => ⟨appliedState s, exec_papply_of_inRange h, fun i hi => ?_, fun i hi hpad => ?_,
    fun a ha => ?_, rfl⟩, fun s i => exec_papply_of_outOfRange⟩
  · rw [bufBit_appliedState, if_pos hi]
  · rw [bufBit_appliedState, if_neg (Nat.not_lt.2 hi), if_pos (show i < 8 * bitBytes _ from hpad)]
  · rw [appliedState, readByte_complete]
    exact readByte_writeBuf_of_outside s _ ha

/-- A map of the numbers below `n` into themselves that repeats no value is a rearrangement of them. -/
theorem map_range_perm_of_injective {n : Nat} {f : Nat → Nat} (hlt : ∀ i < n, f i < n)
    (hinj : ∀ i < n, ∀ j < n, f i = f j → i = j) : ((List.range n).map f).Perm (List.range n) := by
  have hnodup : ((List.range n).map f).Nodup :=
    List.Nodup.map_on (fun i hi j hj => hinj i (List.mem_range.1 hi) j (List.mem_range.1 hj)) List.nodup_range
  have hsub : (List.range n).map f ⊆ List.range n := by
    intro x hx
    obtain ⟨i, hi, rfl⟩ := List.mem_map.1 hx
    exact List.mem_range.2 (hlt i (List.mem_range.1 hi))
  exact (List.subperm_of_subset hnodup hsub).perm_of_length_le (by simp)

/-- Settles O16: VB bit i is VA bit SIG[i], and SIG only rearranges the positions that are counted. -/
theorem papplyByABijectionKeepsTheWeight : Obligations.PapplyByABijectionKeepsTheWeight := by
  intro s hlt hinj
  refine ⟨appliedState s, exec_papply_of_inRange hlt, ?_⟩
  have hperm : ((List.range s.plen.toNat).map fun i => (sigAt s i).toNat).Perm (List.range s.plen.toNat) :=
    map_range_perm_of_injective hlt fun i hi j hj e => hinj i hi j hj (BitVec.eq_of_toNat_eq e)
  calc (List.range s.plen.toNat).countP (fun i => bufBit (appliedState s) .vb i)
      = (List.range s.plen.toNat).countP (fun i => bufBit s .va (sigAt s i).toNat) :=
        List.countP_congr fun i hi => by rw [bufBit_appliedState, if_pos (List.mem_range.1 hi)]
    _ = ((List.range s.plen.toNat).map fun i => (sigAt s i).toNat).countP (fun i => bufBit s .va i) := by
        rw [List.countP_map]; rfl
    _ = (List.range s.plen.toNat).countP (fun i => bufBit s .va i) := hperm.countP_eq _

/-! ### PPACK (R116) -/

/-- The state PPACK leaves when PLEN is even and every index has 12 bits. -/
def packedState (s : State) : State :=
  complete (setPklen (writeBuf s .pk (3 * (s.plen.toNat / 2)) (packedByte s)) (3 * s.plen.toNat / 2))

theorem exec_ppack_of_legal {s : State} (heven : s.plen.toNat % 2 = 0)
    (h12 : ∀ i < s.plen.toNat, (sigAt s i).toNat < 4096) : exec .ppack s = .next (packedState s) := by
  have hne : ¬ plenVal s % 2 = 1 := by unfold plenVal; omega
  rw [exec_ppack, execPpack, if_neg hne, firstIndexFrom_eq_none.2 h12]
  rfl

theorem exec_ppack_of_odd {s : State} (hodd : s.plen.toNat % 2 = 1) :
    exec .ppack s = .next (faulted s 3 (BitVec.ofNat 32 s.plen.toNat)) :=
  if_pos hodd

theorem exec_ppack_of_outOfRange {s : State} {i : Nat} (heven : s.plen.toNat % 2 = 0) (hi : i < s.plen.toNat)
    (hbad : 4096 ≤ (sigAt s i).toNat) (hlow : ∀ j < i, (sigAt s j).toNat < 4096) :
    exec .ppack s = .next (faulted s 5 (BitVec.ofNat 32 i)) := by
  have hne : ¬ plenVal s % 2 = 1 := by unfold plenVal; omega
  rw [exec_ppack, execPpack, if_neg hne, firstIndexFrom_eq_some.2 ⟨hi, hbad, hlow⟩]
  rfl

theorem bufByte_packedState {s : State} {o : Nat} (ho : o < 3 * (s.plen.toNat / 2)) :
    bufByte (packedState s) .pk o = packedByte s o := by
  rw [packedState, bufByte_complete, bufByte_setPklen, bufByte_writeBuf_self, if_pos ho]

/-- PLEN has 12 bits, so 3 L / 2 fits PKLEN. -/
theorem pklen_packedState (s : State) : (packedState s).pklen.toNat = 3 * s.plen.toNat / 2 := by
  have hL : s.plen.toNat < 4096 := s.plen.isLt
  rw [packedState, complete_pklen, setPklen_pklen_toNat _ (by omega)]

theorem readByte_packedState_of_outside {s : State} {a : Nat}
    (ha : ¬(bufBase .pk ≤ a ∧ a < bufBase .pk + 3 * (s.plen.toNat / 2))) :
    readByte (packedState s) a = readByte s a := by
  rw [packedState, readByte_complete, readByte_setPklen, readByte_writeBuf_of_outside s _ ha]

/-- Settles O17: each byte of a pair is one of the three forms of `packedByte`. -/
theorem ppackPacksTwelveBitIndicesOrFaults : Obligations.PpackPacksTwelveBitIndicesOrFaults := by
  refine ⟨rfl, fun s heven h12 => ⟨packedState s, exec_ppack_of_legal heven h12, fun u hu => ?_,
    fun a ha => ?_, pklen_packedState s, rfl⟩, fun s => exec_ppack_of_odd,
    fun s i => exec_ppack_of_outOfRange⟩
  · have h₀ := h12 (2 * u) (by omega)
    have h₁ := h12 (2 * u + 1) (by omega)
    rw [bufByte_packedState (by omega), bufByte_packedState (by omega), bufByte_packedState (by omega)]
    refine ⟨?_, packedByte_one s u h₁, packedByte_two s u⟩
    rw [packedByte_zero]
    omega
  · exact readByte_packedState_of_outside (by omega)

/-! ### PUNPK (R118) -/

/-- The state PUNPK leaves when PKLEN is a multiple of 3. -/
def unpackedState (s : State) : State :=
  complete (setPlen (writeSig s (2 * (s.pklen.toNat / 3)) (unpackedIndex s)) (2 * s.pklen.toNat / 3))

theorem exec_punpk_of_multiple {s : State} (h3 : s.pklen.toNat % 3 = 0) :
    exec .punpk s = .next (unpackedState s) :=
  if_pos h3

theorem exec_punpk_of_not_multiple {s : State} (h3 : s.pklen.toNat % 3 ≠ 0) :
    exec .punpk s = .next (faulted s 4 (BitVec.ofNat 32 s.pklen.toNat)) :=
  if_neg h3

theorem sigAt_unpackedState {s : State} {i : Nat} (hi : i < 2 * (s.pklen.toNat / 3)) :
    sigAt (unpackedState s) i = unpackedIndex s i := by
  rw [unpackedState, sigAt_complete, sigAt_setPlen, sigAt_writeSig, if_pos hi]

/-- The bound is where 2 B / 3 still fits PLEN; every legal PKLEN meets it. -/
theorem plen_unpackedState {s : State} (hB : s.pklen.toNat < 6144) :
    (unpackedState s).plen.toNat = 2 * s.pklen.toNat / 3 := by
  rw [unpackedState, complete_plen, setPlen_plen_toNat _ (by omega)]

theorem readByte_unpackedState_of_outside {s : State} {a : Nat}
    (ha : ¬(bufBase .sig ≤ a ∧ a < bufBase .sig + 2 * (2 * (s.pklen.toNat / 3)))) :
    readByte (unpackedState s) a = readByte s a := by
  rw [unpackedState, readByte_complete, readByte_setPlen]
  exact readByte_writeBuf_of_outside s _ ha

/-- Settles O18: the two elements of a triple of bytes are the two forms of `unpackedIndex`. -/
theorem punpkUnpacksTwelveBitIndicesOrFaults : Obligations.PunpkUnpacksTwelveBitIndicesOrFaults := by
  refine ⟨rfl, fun s hB h3 => ⟨unpackedState s, exec_punpk_of_multiple h3, fun u hu => ?_, fun a ha => ?_,
    plen_unpackedState (by omega), rfl⟩, fun s => exec_punpk_of_not_multiple⟩
  · rw [sigAt_unpackedState (by omega), sigAt_unpackedState (by omega)]
    exact ⟨unpackedIndex_even s u, unpackedIndex_odd s u⟩
  · exact readByte_unpackedState_of_outside (by omega)

/-! ### PPACK and PUNPK are inverse (R117) -/

/-- An unpacked index has 12 bits. -/
theorem unpackedIndex_lt (s : State) (i : Nat) : (unpackedIndex s i).toNat < 4096 := by
  obtain ⟨u, rfl | rfl⟩ : ∃ u, i = 2 * u ∨ i = 2 * u + 1 := ⟨i / 2, by omega⟩
  · have h₀ := (bufByte s .pk (3 * u)).isLt
    have h₁ := (bufByte s .pk (3 * u + 1)).isLt
    rw [unpackedIndex_even]
    omega
  · have h₂ := (bufByte s .pk (3 * u + 2)).isLt
    rw [unpackedIndex_odd]
    omega

/-- Unpacking what `2 n` indices of 12 bits were packed to gives the indices. -/
theorem unpackedIndex_of_packed {s t : State} {n i : Nat}
    (hpk : ∀ o < 3 * n, bufByte t .pk o = packedByte s o) (h12 : ∀ j < 2 * n, (sigAt s j).toNat < 4096)
    (hi : i < 2 * n) : unpackedIndex t i = sigAt s i := by
  apply BitVec.eq_of_toNat_eq
  obtain ⟨u, hu⟩ : ∃ u, i = 2 * u ∨ i = 2 * u + 1 := ⟨i / 2, by omega⟩
  have h₀ := h12 (2 * u) (by omega)
  have h₁ := h12 (2 * u + 1) (by omega)
  rcases hu with rfl | rfl
  · rw [unpackedIndex_even, hpk _ (by omega), hpk _ (by omega), packedByte_zero, packedByte_one s u h₁]
    omega
  · rw [unpackedIndex_odd, hpk _ (by omega), hpk _ (by omega), packedByte_one s u h₁, packedByte_two]
    omega

/-- Packing what `3 n` bytes were unpacked to gives the bytes. -/
theorem packedByte_of_unpacked {s t : State} {n o : Nat}
    (hsig : ∀ i < 2 * n, sigAt t i = unpackedIndex s i) (ho : o < 3 * n) :
    packedByte t o = bufByte s .pk o := by
  apply BitVec.eq_of_toNat_eq
  obtain ⟨u, hu⟩ : ∃ u, o = 3 * u ∨ o = 3 * u + 1 ∨ o = 3 * u + 2 := ⟨o / 3, by omega⟩
  have heven := unpackedIndex_even s u
  have hodd := unpackedIndex_odd s u
  rw [← hsig _ (by omega)] at heven hodd
  have hb₀ := (bufByte s .pk (3 * u)).isLt
  have hb₁ := (bufByte s .pk (3 * u + 1)).isLt
  have hb₂ := (bufByte s .pk (3 * u + 2)).isLt
  rcases hu with rfl | rfl | rfl
  · rw [packedByte_zero]
    omega
  · rw [packedByte_one t u (by omega)]
    omega
  · rw [packedByte_two]
    omega

/-- PPACK then PUNPK. -/
theorem punpk_after_ppack {s : State} (heven : s.plen.toNat % 2 = 0)
    (h12 : ∀ i < s.plen.toNat, (sigAt s i).toNat < 4096) :
    ∃ t u, exec .ppack s = .next t ∧ exec .punpk t = .next u ∧ u.plen = s.plen ∧
      ∀ i < s.plen.toNat, sigAt u i = sigAt s i := by
  have hB := pklen_packedState s
  have hL : s.plen.toNat < 4096 := s.plen.isLt
  refine ⟨packedState s, unpackedState (packedState s), exec_ppack_of_legal heven h12,
    exec_punpk_of_multiple (by omega), BitVec.eq_of_toNat_eq ?_, fun i hi => ?_⟩
  · rw [plen_unpackedState (by omega)]
    omega
  · rw [sigAt_unpackedState (by omega)]
    exact unpackedIndex_of_packed (n := s.plen.toNat / 2) (fun o => bufByte_packedState)
      (fun j hj => h12 j (by omega)) (by omega)

/-- PUNPK then PPACK. -/
theorem ppack_after_punpk {s : State} (hB : s.pklen.toNat ≤ 4344) (h3 : s.pklen.toNat % 3 = 0) :
    ∃ t u, exec .punpk s = .next t ∧ exec .ppack t = .next u ∧ u.pklen = s.pklen ∧
      ∀ o < s.pklen.toNat, bufByte u .pk o = bufByte s .pk o := by
  have hL := plen_unpackedState (s := s) (by omega)
  have h12 : ∀ i < (unpackedState s).plen.toNat, (sigAt (unpackedState s) i).toNat < 4096 := fun i hi => by
    rw [sigAt_unpackedState (by omega)]
    exact unpackedIndex_lt s i
  refine ⟨unpackedState s, packedState (unpackedState s), exec_punpk_of_multiple h3,
    exec_ppack_of_legal (by omega) h12, BitVec.eq_of_toNat_eq ?_, fun o ho => ?_⟩
  · rw [pklen_packedState]
    omega
  · rw [bufByte_packedState (by omega)]
    exact packedByte_of_unpacked (n := s.pklen.toNat / 3) (fun i => sigAt_unpackedState) (by omega)

/-- Settles O19, one order at a time. -/
theorem packAndUnpackAreInverse : Obligations.PackAndUnpackAreInverse :=
  ⟨fun _ => punpk_after_ppack, fun _ => ppack_after_punpk⟩

/-! ### PWT (R119) -/

/-- PWT of either vector: at most 2896 set bits, so the count fits WEIGHT. -/
theorem exec_pwt_counts (s : State) (v : VecSel) :
    ∃ t, exec (.pwt v) s = .next t ∧
      t.weight.toNat = ((List.range 2896).filter fun i => bufBit s (vecBuf v) i).length ∧
      t = completed { s with weight := t.weight } := by
  refine ⟨_, rfl, ?_, rfl⟩
  have hle := hammingWeight_le s (vecBuf v)
  rw [complete_weight, setWeight_weight_toNat _ (by omega)]
  exact List.countP_eq_length_filter

/-- Settles O20, the same for both vectors. -/
theorem pwtCountsTheSetBits : Obligations.PwtCountsTheSetBits :=
  ⟨rfl, rfl, fun s => ⟨exec_pwt_counts s .va, exec_pwt_counts s .vb⟩⟩

end Sys2Proof.Machine
end

/-! ## The syndrome command (42_syndrome.md) -/

section
namespace Sys2Proof.Machine

/-! ### SYN (R131) -/

/-- The state SYN leaves when the matrix is locked. -/
def synState (s : State) : State := complete (writeBits s .sy Config.codeDim (synBit s))

theorem exec_syn_of_locked {s : State} (h : s.mlock = true) : exec .syn s = .next (synState s) := by
  rw [exec_syn, execSyn, if_pos h, finish, synState]

theorem exec_syn_of_unlocked {s : State} (h : s.mlock = false) : exec .syn s = .next (faulted s 6 0) := by
  rw [exec_syn, execSyn, if_neg (by simp [h])]
  rfl

/-- The bits of SY after SYN are the syndrome. -/
theorem bufBit_synState (s : State) {i : Nat} (hi : i < 1448) : bufBit (synState s) .sy i = synBit s i := by
  rw [synState, bufBit_complete, bufBit_writeBits, if_pos (show i < Config.codeDim from hi)]

/-- SYN writes the 181 bytes of SY only. -/
theorem readByte_synState_of_outside (s : State) {a : Nat} (h : ¬(bufBase .sy ≤ a ∧ a < bufBase .sy + 181)) :
    readByte (synState s) a = readByte s a := by
  rw [synState, readByte_complete]
  exact readByte_writeBuf_of_outside s _ h

/-- Settles O21: MLOCK decides which end SYN has, and the fold of a row is the parity of its set terms. -/
theorem synMultipliesByTheMatrixOrFaults : Obligations.SynMultipliesByTheMatrixOrFaults := by
  refine ⟨rfl, fun s h => ⟨synState s, exec_syn_of_locked h, fun i hi => ?_, fun a ha => ?_, rfl⟩,
    fun s => exec_syn_of_unlocked⟩
  · rw [bufBit_synState s hi]
    exact foldl_xor_eq _ _ _
  · exact readByte_synState_of_outside s ha

/-! ### Linearity (R132) -/

/-- A fold of exclusive ors adds: term by term sums fold to the sum of the folds. -/
theorem foldl_xor_xor (l : List Nat) (f g : Nat → Bool) (p q : Bool) :
    l.foldl (fun acc j => acc ^^ (f j ^^ g j)) (p ^^ q) =
      (l.foldl (fun acc j => acc ^^ f j) p ^^ l.foldl (fun acc j => acc ^^ g j) q) := by
  induction l generalizing p q with
  | nil => rfl
  | cons x xs ih =>
    have hswap : ((p ^^ q) ^^ (f x ^^ g x)) = ((p ^^ f x) ^^ (q ^^ g x)) := by
      rw [Bool.xor_assoc, Bool.xor_left_comm q, ← Bool.xor_assoc]
    rw [List.foldl_cons, List.foldl_cons, List.foldl_cons, hswap, ih]

/-- A bit of the matrix depends on the 262088 bytes of HM only. -/
theorem hmBit_congr {s t : State} (h : ∀ o < 262088, bufByte t .hm o = bufByte s .hm o) {i j : Nat}
    (hi : i < 1448) (hj : j < 1448) : hmBit t i j = hmBit s i j := by
  rw [hmBit, hmBit, h _ (by omega)]

/-- One syndrome bit of a sum of keys, for states with the same matrix. -/
theorem synBit_xor {a b c : State}
    (hm : ∀ o < 262088, bufByte b .hm o = bufByte a .hm o ∧ bufByte c .hm o = bufByte a .hm o)
    (hkey : ∀ i < 2896, bufBit c .va i = (bufBit a .va i ^^ bufBit b .va i)) {i : Nat} (hi : i < 1448) :
    synBit c i = (synBit a i ^^ synBit b i) := by
  rw [synBit, synBit, synBit, hkey i (by omega), ← foldl_xor_xor]
  refine List.foldl_ext _ _ _ fun acc j hj => ?_
  have hj : j < 1448 := List.mem_range.1 hj
  have hkj : bufBit c .va (Config.codeDim + j) =
      (bufBit a .va (Config.codeDim + j) ^^ bufBit b .va (Config.codeDim + j)) :=
    hkey _ (show 1448 + j < 2896 by omega)
  rw [hmBit_congr (fun o ho => (hm o ho).1) hi hj, hmBit_congr (fun o ho => (hm o ho).2) hi hj, hkj,
    Bool.and_xor_distrib_left]

/-- Settles O22: SY holds the syndrome bits, and each of them is linear in the key. -/
theorem syndromeIsLinear : Obligations.SyndromeIsLinear := by
  intro a b c ha hb hc hm hkey
  refine ⟨_, _, _, exec_syn_of_locked ha, exec_syn_of_locked hb, exec_syn_of_locked hc, fun i hi => ?_⟩
  rw [bufBit_synState a hi, bufBit_synState b hi, bufBit_synState c hi]
  exact synBit_xor hm hkey hi

end Sys2Proof.Machine
end

/-! ## The big-integer commands (43_bignum.md) -/

section
namespace Sys2Proof

/-! ### The command word of BN_SHRW (R91, R149) -/

/-- A command word as a number: each field at its place (R91). -/
theorem packFields_eq_ofNat (imm : BitVec 16) (s d : BitVec 1) (op : BitVec 8) :
    packFields imm s d op =
      BitVec.ofNat 32 (op.toNat + 0x100 * d.toNat + 0x200 * s.toNat + 65536 * imm.toNat) := by
  have hop := op.isLt
  have hd := d.isLt
  have hs := s.isLt
  have himm := imm.isLt
  symm
  rw [eq_packFields (c := BitVec.ofNat 32 _)]
  · congr 1
    all_goals
      apply BitVec.eq_of_toNat_eq
      simp only [immField, sField, dField, opField, BitVec.extractLsb'_toNat, BitVec.toNat_ofNat,
        Nat.shiftRight_eq_div_pow]
      omega
  · apply BitVec.eq_of_toNat_eq
    simp only [rsvField, BitVec.extractLsb'_toNat, BitVec.toNat_ofNat, BitVec.ofNat_eq_ofNat,
      Nat.shiftRight_eq_div_pow]
    omega

theorem encode_bnShrw_eq_ofNat (d : BnSel) {k : Nat} (hk : k < 65536) :
    encode (.bnShrw d k) = BitVec.ofNat 32 (0x34 + 0x100 * (bnBit d).toNat + 65536 * k) := by
  rw [encode, packFields_eq_ofNat, BitVec.toNat_ofNat, Nat.mod_eq_of_lt hk]
  rfl

theorem decode_bnShrw (d : BnSel) {k : Nat} (hk : k < 65536) :
    decode (BitVec.ofNat 32 (0x34 + 0x100 * (bnBit d).toNat + 65536 * k)) = .ok (.bnShrw d k) :=
  encode_bnShrw_eq_ofNat d hk ▸ decode_encode_bnShrw d hk

end Sys2Proof

namespace Sys2Proof.Machine

/-! ### The end of a big-integer command (R141, R142) -/

/-- The state a command leaves that completes with `BN[d] <- (n', x)`. -/
def bnResult (s : State) (d : BnSel) (xs : List Word) : State := complete (writeBn s d xs)

section
variable (s : State) {d : BnSel} {xs : List Word}

theorem bnResult_frame (d : BnSel) (xs : List Word) :
    bnResult s d xs = completed (takeBn s (bnResult s d xs) d) :=
  (takeBn_writeBn s d xs).symm

/-- The same frame for a command that writes REM as well. -/
theorem bnResult_setRem_frame (r : Nat) (d : BnSel) (xs : List Word) :
    let t := bnResult (setRem s r) d xs
    t = completed (takeBn { s with rem := t.rem } t d) := by
  cases d <;> rfl

theorem bnResult_rem (d : BnSel) (xs : List Word) : (bnResult s d xs).rem = s.rem :=
  writeBn_rem s d xs

theorem bnVal_bnResult (h : xs.length ≤ bnCap d) : bnVal (bnResult s d xs) d = wordsVal xs := by
  rw [bnResult, bnVal_complete, bnVal_writeBn s d xs h]

theorem bnLen_bnResult (h : xs.length ≤ bnCap d) : bnLen (bnResult s d xs) d = xs.length := by
  rw [bnResult, bnLen_complete, bnLen_writeBn s d xs h]

theorem bnArray_bnResult_of_lt (h : xs.length ≤ bnCap d) {i : Nat} (hi : i < xs.length) :
    (bnArray (bnResult s d xs) d).getD i 0 = xs.getD i 0 := by
  rw [bnResult, bnArray_complete, bnArray_writeBn s d xs h, List.getD_append _ _ _ _ hi]

theorem clearBeyond_bnResult (h : xs.length ≤ bnCap d) : clearBeyond (bnResult s d xs) d := by
  unfold clearBeyond
  rw [bnResult, bnLen_complete, bnArray_complete]
  exact clearBeyond_writeBn s d xs h

theorem normalised_bnResult (h : xs.length ≤ bnCap d) (hn : NormalWords xs) :
    normalised (bnResult s d xs) d := by
  unfold normalised
  rw [bnResult, bnLen_complete, bnArray_complete]
  exact normalised_writeBn s d xs h hn

theorem finishBn_of_fits (h : xs.length ≤ bnCap d) : finishBn s d xs = .next (bnResult s d xs) :=
  if_neg (Nat.not_lt.2 h)

theorem finishBn_of_exceeds (h : bnCap d < xs.length) :
    finishBn s d xs = .next (faulted s 2 (BitVec.ofNat 32 xs.length)) :=
  if_pos h

end

/-- A command that ends in `finishBn` and sets DONE has not faulted, so normal words stay normal. -/
theorem normalised_of_finishBn {s t : State} {d : BnSel} {xs : List Word} (hs : s.done = false)
    (ht : t.done = true) (hn : NormalWords xs) (he : finishBn s d xs = .next t) : normalised t d := by
  rcases finishBn_cases s d xs with ⟨hfit, hres⟩ | ⟨-, hfault⟩
  · obtain rfl := Host.Outcome.next.inj (hres.symm.trans he)
    exact normalised_bnResult s hfit hn
  · obtain rfl := Host.Outcome.next.inj (hfault.symm.trans he)
    simp [hs] at ht

/-! ### What a command reads from a register (R141) -/

/-- A word below the length is the same among the words read. -/
theorem bnWords_getD (s : State) (d : BnSel) {i : Nat} (hi : i < bnLen s d) :
    (bnWords s d).getD i 0 = (bnArray s d).getD i 0 := by
  rw [bnWords, List.getD_eq_getElem?_getD, List.getD_eq_getElem?_getD, List.getElem?_take_of_lt hi]

/-- A value of 2^(32 n) or more has more than `n` words. -/
theorem lt_length_of_le_wordsVal {n : Nat} {xs : List Word} (h : 2 ^ (32 * n) ≤ wordsVal xs) :
    n < xs.length := by
  have hlt : 2 ^ (32 * n) < 2 ^ (32 * xs.length) := h.trans_lt (wordsVal_lt xs)
  have := (Nat.pow_lt_pow_iff_right (by decide)).1 hlt
  omega

/-! ### BN_LDH (R143) -/

/-- The hash fits both registers. -/
theorem hashWords_length_le_bnCap (s : State) (d : BnSel) : (hashWords s).length ≤ bnCap d :=
  (hashWords_length_le s).trans (by cases d <;> decide)

theorem exec_bnLdh_eq (s : State) (d : BnSel) :
    exec (.bnLdh d) s = .next (bnResult s d (hashWords s)) := rfl

/-- BN_LDH normalises from any state. -/
theorem normalised_after_bnLdh (s : State) (d : BnSel) : normalised (bnResult s d (hashWords s)) d :=
  normalised_bnResult s (hashWords_length_le_bnCap s d) (stripZeros_normal _)

/-- Settles O23: the words written are the sixteen words of the hash, stripped. -/
theorem bnLdhLoadsTheHash : Obligations.BnLdhLoadsTheHash := by
  refine ⟨rfl, rfl, fun s d => ⟨_, exec_bnLdh_eq s d, ?_, ?_, normalised_after_bnLdh s d, ?_,
    bnResult_frame s d _⟩⟩
  all_goals have hfit := hashWords_length_le_bnCap s d
  · rw [bnVal_bnResult s hfit, hashWords_val]
  · rw [bnLen_bnResult s hfit]
    exact hashWords_length_le s
  · exact clearBeyond_bnResult s hfit

/-! ### BN_MULW (R144) -/

/-- The length of the product of a register and OPW, by its value. -/
theorem length_mulWords_bnWords {s : State} {d : BnSel} (h : bnLen s d ≤ bnCap d) :
    (mulWords s.opw (bnWords s d)).length = (if s.opw = 0 then 0
      else if bnVal s d * s.opw.toNat < 2 ^ (32 * bnLen s d) then bnLen s d else bnLen s d + 1) := by
  rw [mulWords_length, bnWords_length s d h, bnVal]

/-- A product below 2^(32 CAP) fits: a carry out of a full register would make it larger. -/
theorem length_mulWords_le_bnCap {s : State} {d : BnSel} (h : bnLen s d ≤ bnCap d)
    (hv : bnVal s d * s.opw.toNat < 2 ^ (32 * bnCap d)) :
    (mulWords s.opw (bnWords s d)).length ≤ bnCap d := by
  rw [length_mulWords_bnWords h]
  split
  · exact Nat.zero_le _
  · split
    · exact h
    · next hcarry =>
      have hne : bnLen s d ≠ bnCap d := fun he => hcarry (he ▸ hv)
      omega

/-- A product of 2^(32 CAP) or more needs exactly one word more than the register has. -/
theorem length_mulWords_eq_of_exceeds {s : State} {d : BnSel}
    (hv : 2 ^ (32 * bnCap d) ≤ bnVal s d * s.opw.toNat) :
    (mulWords s.opw (bnWords s d)).length = bnCap d + 1 := by
  have hmore : bnCap d < (mulWords s.opw (bnWords s d)).length :=
    lt_length_of_le_wordsVal (by rwa [mulWords_val])
  have hless := mulWords_length_le s.opw (bnWords s d)
  have hread := bnWords_length_le s d
  omega

/-- Settles O24: the size of the product decides which end BN_MULW has. -/
theorem bnMulwIsExactOrFaults : Obligations.BnMulwIsExactOrFaults := by
  refine ⟨rfl, rfl, fun s d h hv => ?_, fun s d _ hv => ?_⟩
  · have hfit := length_mulWords_le_bnCap h hv
    refine ⟨_, finishBn_of_fits s hfit, ?_, ?_, clearBeyond_bnResult s hfit, bnResult_frame s d _⟩
    · rw [bnVal_bnResult s hfit, mulWords_val, bnVal]
    · rw [bnLen_bnResult s hfit, length_mulWords_bnWords h]
  · have hlen := length_mulWords_eq_of_exceeds hv
    rw [← hlen]
    exact finishBn_of_exceeds s (by omega)

/-! ### BN_DIV3 (R146) -/

/-- The state BN_DIV3 leaves when the quotient fits. -/
def dividedState (s : State) (d src : BnSel) : State :=
  bnResult (setRem s (remOf (bnWords s src))) d (quotWords (bnWords s src))

theorem exec_bnDiv3_of_fits {s : State} {d src : BnSel} (h : (quotWords (bnWords s src)).length ≤ bnCap d) :
    exec (.bnDiv3 d src) s = .next (dividedState s d src) := by
  rw [exec_bnDiv3, execBnDiv3, if_neg (Nat.not_lt.2 h)]
  cases d <;> rfl

theorem exec_bnDiv3_of_exceeds {s : State} {d src : BnSel} (h : bnCap d < (quotWords (bnWords s src)).length) :
    exec (.bnDiv3 d src) s = .next (faulted s 2 (BitVec.ofNat 32 (quotWords (bnWords s src)).length)) :=
  if_pos h

theorem rem_dividedState (s : State) (d src : BnSel) : (dividedState s d src).rem.toNat = bnVal s src % 3 := by
  have hr : remOf (bnWords s src) < 3 := divLoop_rem_lt _
  rw [dividedState, bnResult_rem, setRem_rem_toNat s (by omega), remOf_eq, bnVal]

/-- Settles O25: the quotient's length decides which end BN_DIV3 has. -/
theorem bnDiv3IsExactOrFaults : Obligations.BnDiv3IsExactOrFaults := by
  refine ⟨rfl, rfl, rfl, rfl, fun s d src n h hn => ?_⟩
  obtain rfl : (quotWords (bnWords s src)).length = n := by
    rw [quotWords_length, quotLen_bnWords s src h, hn]
  refine ⟨fun hfit => ⟨_, exec_bnDiv3_of_fits hfit, ?_, ?_, bnLen_bnResult _ hfit, clearBeyond_bnResult _ hfit,
    bnResult_setRem_frame s _ d _⟩, exec_bnDiv3_of_exceeds⟩
  · rw [rem_dividedState, dividedState, bnVal_bnResult _ hfit, quotWords_val, ← bnVal]
    omega
  · rw [rem_dividedState]
    omega

/-! ### The reciprocal estimate (R147) -/

/-- The estimate is v div 3 or one less: 3 × 0x55555555 falls short of 2^32 by 1 only. -/
theorem recip_estimate {v : Nat} (hv : v < 3 * 2 ^ 32) :
    3 * (v * 0x55555555 / 2 ^ 32) ≤ v ∧ v - 3 * (v * 0x55555555 / 2 ^ 32) < 6 := by
  omega

/-- Settles O26: the correction is made exactly when the estimate is one less than v div 3. -/
theorem reciprocalEstimateIsCorrect : Obligations.ReciprocalEstimateIsCorrect := by
  intro v hv
  obtain ⟨hle, hraw⟩ := recip_estimate hv
  refine ⟨hraw, ?_⟩
  rw [recipDiv, Config.recip]
  split
  · next hlow => exact congrArg₂ Prod.mk (by omega) (by omega)
  · next hexact => exact congrArg₂ Prod.mk (by omega) (by omega)

/-! ### BN_COPY (R148) -/

/-- Settles O27: the source's length decides which end BN_COPY has. -/
theorem bnCopyCopiesOrFaults : Obligations.BnCopyCopiesOrFaults := by
  refine ⟨rfl, rfl, rfl, rfl, fun s d src h hfit => ?_, fun s d src h hbig => ?_⟩
  all_goals have hlen := bnWords_length s src h
  · rw [← hlen] at hfit
    refine ⟨_, finishBn_of_fits s hfit, ?_, fun i hi => ?_, clearBeyond_bnResult s hfit, bnResult_frame s d _⟩
    · rw [bnLen_bnResult s hfit, hlen]
    · rw [bnArray_bnResult_of_lt s hfit (hlen ▸ hi), bnWords_getD s src hi]
  · rw [← hlen] at hbig ⊢
    exact finishBn_of_exceeds s hbig

/-! ### BN_SHRW (R149) -/

theorem exec_bnShrw_eq (s : State) (d : BnSel) (k : Nat) :
    exec (.bnShrw d k) s = .next (bnResult s d (shrWords k (bnWords s d))) := rfl

theorem length_shrWords_le_bnCap (s : State) (d : BnSel) (k : Nat) :
    (shrWords k (bnWords s d)).length ≤ bnCap d :=
  (shrWords_length_le k _).trans (bnWords_length_le s d)

/-- BN_SHRW normalises from any state. -/
theorem normalised_after_bnShrw (s : State) (d : BnSel) (k : Nat) :
    normalised (bnResult s d (shrWords k (bnWords s d))) d :=
  normalised_bnResult s (length_shrWords_le_bnCap s d k) (stripZeros_normal _)

/-- Settles O28: dropping `k` words divides by 2^(32 k), and stripping zero words keeps the value. -/
theorem bnShrwDividesByWordPowers : Obligations.BnShrwDividesByWordPowers := by
  refine ⟨fun k hk => ⟨decode_bnShrw .bna hk, decode_bnShrw .bnb hk⟩, fun s d k => ?_⟩
  have hfit := length_shrWords_le_bnCap s d k
  refine ⟨_, exec_bnShrw_eq s d k, ?_, normalised_after_bnShrw s d k, clearBeyond_bnResult s hfit,
    bnResult_frame s d _⟩
  rw [bnVal_bnResult s hfit, shrWords, stripZeros_val, wordsVal_drop, bnVal]

/-! ### Normal form (R152) -/

/-- BN_DIV3 that sets DONE has not faulted, so normal words give a normal quotient. -/
theorem normalised_of_bnDiv3 {s t : State} {d src : BnSel} (hs : s.done = false) (ht : t.done = true)
    (hn : NormalWords (bnWords s src)) (he : exec (.bnDiv3 d src) s = .next t) : normalised t d := by
  rcases Nat.lt_or_ge (bnCap d) (quotWords (bnWords s src)).length with hbig | hfit
  · obtain rfl := Host.Outcome.next.inj ((exec_bnDiv3_of_exceeds hbig).symm.trans he)
    simp [faulted, hs] at ht
  · obtain rfl := Host.Outcome.next.inj ((exec_bnDiv3_of_fits hfit).symm.trans he)
    exact normalised_bnResult _ hfit (quotWords_normal _ hn)

/-- Settles O29: BN_LDH and BN_SHRW strip zero words; a product, a quotient and a copy of normal words are
normal. -/
theorem bigIntegerCommandsKeepNormalForm : Obligations.BigIntegerCommandsKeepNormalForm := by
  intro s t d src k hs ht hlen
  refine ⟨fun he => ?_, fun he => ?_, fun hn he => ?_, fun hn he => ?_, fun hn he => ?_⟩
  · obtain rfl := Host.Outcome.next.inj he
    exact normalised_after_bnLdh s d
  · obtain rfl := Host.Outcome.next.inj he
    exact normalised_after_bnShrw s d k
  · exact normalised_of_finishBn hs ht (mulWords_normal _ _ (normalWords_bnWords s d (hlen d) hn)) he
  · exact normalised_of_bnDiv3 hs ht (normalWords_bnWords s src (hlen src) hn) he
  · exact normalised_of_finishBn hs ht (normalWords_bnWords s src (hlen src) hn) he

end Sys2Proof.Machine
end

/-! ## The CHAL unit (44_challenge.md) -/

section
namespace Sys2Proof.Machine

/-! ### The division loop (R163) -/

theorem digitLoop_nil (n : Nat) : digitLoop n [] = [] := by cases n <;> rfl

/-- The last remainder is the most significant non-zero digit, at position `j`: the quotient after it is zero,
so the loop stops there. -/
theorem getLast?_digitLoop {n j : Nat} {ws : List Word} (h : NormalWords ws) (hj : j < n)
    (hlo : 3 ^ j ≤ wordsVal ws) (hhi : wordsVal ws < 3 ^ (j + 1)) :
    (digitLoop n ws).getLast? = some (wordsVal ws / 3 ^ j) := by
  induction n generalizing ws j with
  | zero => omega
  | succ n ih =>
    have hquot : NormalWords (quotWords ws) := quotWords_normal ws h
    have hval : wordsVal (quotWords ws) = wordsVal ws / 3 := quotWords_val ws
    cases ws with
    | nil => exact absurd hlo (Nat.not_le.2 (Nat.pow_pos (by decide)))
    | cons w ws =>
      rw [digitLoop]
      cases j with
      | zero =>
        have hstop : quotWords (w :: ws) = [] := hquot.eq_nil_iff.2 (by omega)
        rw [hstop, digitLoop_nil, List.getLast?_singleton, remOf_eq, Nat.pow_zero, Nat.div_one,
          Nat.mod_eq_of_lt (by omega)]
      | succ j =>
        have hrest := ih hquot (Nat.lt_of_succ_lt_succ hj) (by omega) (by omega)
        rw [List.getLast?_cons, hrest, Option.getD_some, hval, Nat.div_div_eq_div_mul, ← Nat.pow_succ']

/-- 219 divisions bring H' to zero. -/
theorem quotLoop_chalWords (s : State) : quotLoop 219 (chalWords s) = [] := by
  obtain ⟨hval, hnormal⟩ := quotLoop_val 219 (chalWords s) (chalWords_normal s)
  refine hnormal.eq_nil_iff.2 (hval.trans (Nat.div_eq_of_lt ?_))
  rw [chalWords_val]
  exact scaledHash_lt s

/-! ### The results of CHAL (R164) -/

theorem chalByte_toNat (s : State) {i : Nat} (hi : i < 219) :
    (chalByte s i).toNat = scaledHash s / 3 ^ (218 - i) % 3 := by
  have hdigit : (chalDigits s).getD (218 - i) 0 = scaledHash s / 3 ^ (218 - i) % 3 := by
    rw [← chalWords_val]
    exact digitLoop_getD 219 _ (chalWords_normal s) (218 - i) (by omega)
  change (BitVec.ofNat 8 ((chalDigits s).getD (218 - i) 0)).toNat = _
  rw [hdigit, BitVec.toNat_ofNat]
  omega

theorem chalRem_of_zero {s : State} (h : scaledHash s = 0) : chalRem s = s.rem.toNat := by
  have hnil : chalWords s = [] := (chalWords_normal s).eq_nil_iff.2 ((chalWords_val s).trans h)
  unfold chalRem chalDigits
  rw [hnil, digitLoop_nil, List.getLast?_nil]

theorem chalRem_of_top_digit {s : State} {j : Nat} (hlo : 3 ^ j ≤ scaledHash s)
    (hhi : scaledHash s < 3 ^ (j + 1)) : chalRem s = scaledHash s / 3 ^ j := by
  have hj : j < 219 := (Nat.pow_lt_pow_iff_right (by decide)).1 (hlo.trans_lt (scaledHash_lt s))
  rw [← chalWords_val] at hlo hhi
  have hlast : (chalDigits s).getLast? = some (wordsVal (chalWords s) / 3 ^ j) :=
    getLast?_digitLoop (chalWords_normal s) hj hlo hhi
  unfold chalRem
  rw [hlast, chalWords_val]

/-- The state CHAL leaves. -/
def challengedState (s : State) : State :=
  bnResult (setRem (writeBuf s .ch 219 (chalByte s)) (chalRem s)) .bna []

theorem exec_chal_eq (s : State) : exec .chal s = .next (challengedState s) := by
  rw [exec_chal, execChal, Config.delta, quotLoop_chalWords]
  rfl

/-- The frame of a command that writes a buffer, REM and BNA, the latter with zero. -/
theorem bnResult_setRem_writeBuf_frame (s : State) (b : Buf) (n : Nat) (f : Nat → Byte) (r : Nat) :
    let t := bnResult (setRem (writeBuf s b n f) r) .bna []
    t = completed { s with mem := t.mem, bna := t.bna, lenA := 0, rem := t.rem } := rfl

theorem readByte_challengedState (s : State) (a : Nat) :
    readByte (challengedState s) a = readByte (writeBuf s .ch 219 (chalByte s)) a := by
  rw [challengedState, bnResult, readByte_complete, readByte_writeBn, readByte_setRem]

theorem chAt_challengedState (s : State) {i : Nat} (hi : i < 219) :
    chAt (challengedState s) i = scaledHash s / 3 ^ (218 - i) % 3 := by
  rw [chAt, bufByte_congr (readByte_challengedState s _), bufByte_writeBuf_self, if_pos hi, chalByte_toNat s hi]

theorem rem_challengedState (s : State) : (challengedState s).rem = BitVec.ofNat 2 (chalRem s) := rfl

theorem bnArray_challengedState (s : State) : bnArray (challengedState s) .bna = List.replicate 32 0 := by
  rw [challengedState, bnResult, bnArray_complete, bnArray_writeBn _ _ _ (Nat.zero_le _)]
  rfl

/-- Settles O30: remainder `j` is digit `j` of H', and the loop ends with the quotient zero. -/
theorem chalWritesTheBase3DigitsOfTheScaledHash : Obligations.ChalWritesTheBase3DigitsOfTheScaledHash := by
  refine ⟨rfl, fun s => ⟨challengedState s, exec_chal_eq s, fun i hi => chAt_challengedState s hi,
    fun a ha => ?_, fun w hw => ?_, rfl, fun h => ?_, fun j hlo hhi => ?_,
    bnResult_setRem_writeBuf_frame s .ch 219 _ _⟩⟩
  · rw [readByte_challengedState]
    exact readByte_writeBuf_of_outside s _ ha
  · rw [bnArray_challengedState] at hw
    exact List.eq_of_mem_replicate hw
  · rw [rem_challengedState, chalRem_of_zero h, BitVec.ofNat_toNat, BitVec.setWidth_eq]
  · have hdigit : scaledHash s / 3 ^ j < 3 := Nat.div_lt_of_lt_mul hhi
    rw [rem_challengedState, chalRem_of_top_digit hlo hhi, BitVec.toNat_ofNat,
      Nat.mod_eq_of_lt (hdigit.trans (by decide))]

/-! ### The digits as a sum -/

/-- The `n` lowest base-3 digits of a number add up to it modulo 3^n. -/
theorem sum_base3_digits (x n : Nat) : ∑ j ∈ Finset.range n, x / 3 ^ j % 3 * 3 ^ j = x % 3 ^ n := by
  induction n with
  | zero => rw [Finset.sum_range_zero, Nat.pow_zero, Nat.mod_one]
  | succ n ih => rw [Finset.sum_range_succ, ih, Nat.mod_pow_succ, Nat.mul_comm]

/-- Settles O31: the digits of O30 in reverse order, and H' has no more than 219 of them. -/
theorem chalDigitsSumToTheScaledHash : Obligations.ChalDigitsSumToTheScaledHash := by
  refine fun s => ⟨challengedState s, exec_chal_eq s, ?_⟩
  symm
  calc ∑ i ∈ Finset.range 219, chAt (challengedState s) i * 3 ^ (218 - i)
    _ = ∑ i ∈ Finset.range 219, scaledHash s / 3 ^ (218 - i) % 3 * 3 ^ (218 - i) :=
      Finset.sum_congr rfl fun i hi => by rw [chAt_challengedState s (Finset.mem_range.1 hi)]
    _ = ∑ j ∈ Finset.range 219, scaledHash s / 3 ^ j % 3 * 3 ^ j :=
      Finset.sum_range_reflect (fun j => scaledHash s / 3 ^ j % 3 * 3 ^ j) 219
    _ = scaledHash s % 3 ^ 219 := sum_base3_digits _ _
    _ = scaledHash s := Nat.mod_eq_of_lt (scaledHash_lt s)

end Sys2Proof.Machine
end

/-! ## The engine's turn, NOP, ZEROIZE and acceptance (45_control.md) -/

section
namespace Sys2Proof.Machine

/-! ### The engine's turn (R170, R198) -/

theorem engineTurn_of_not_busy {s : State} (hb : s.busy = false) : engineTurn s = .next s := by
  unfold engineTurn
  rw [hb]
  rfl

theorem engineTurn_of_busy {s : State} (hb : s.busy = true) : engineTurn s = completeCommand s :=
  if_pos hb

theorem completeCommand_of_decode {s : State} {i : Instr} (hd : decode s.cmd = .ok i) :
    completeCommand s = exec i s := by
  unfold completeCommand
  rw [hd]

theorem completeCommand_of_illegal {s : State} {e : DecodeError} (hd : decode s.cmd = .error e) :
    completeCommand s = .next (faultEntry s .illCmd s.cmd) := by
  unfold completeCommand
  rw [hd]
  rfl

/-- A step that is the engine's turn, its event removed from the schedule (R10, R170). -/
theorem step_engine {s : State} {rest : List Event} (hs : s.schedule = .engine :: rest) :
    step s = engineTurn { s with schedule := rest } :=
  step_cons hs

/-- Settles O5. -/
theorem stepRunsTheDecodedCommand : Obligations.StepRunsTheDecodedCommand := by
  have hturn : ∀ {s : State} {i : Instr}, s.busy = true → decode s.cmd = .ok i → engineTurn s = exec i s :=
    fun hb hd => (engineTurn_of_busy hb).trans (completeCommand_of_decode hd)
  exact fun s i hb hd => ⟨fun hs => (step_nil hs).trans (hturn hb hd),
    fun rest hs => (step_engine hs).trans (hturn (s := { s with schedule := rest }) hb hd)⟩

/-- Settles O6. -/
theorem engineNotBusyStaysAsItIs : Obligations.EngineNotBusyStaysAsItIs := fun s hb =>
  ⟨fun hs => (step_nil hs).trans (engineTurn_of_not_busy hb),
    fun rest hs => (step_engine hs).trans (engineTurn_of_not_busy (s := { s with schedule := rest }) hb)⟩

/-! ### No step is stuck (R170, R183) -/

/-- Both ends of a command, completion and fault entry, clear BUSY (R170, R183). -/
theorem exec_ends_not_busy (i : Instr) (s : State) : ∃ t, exec i s = .next t ∧ t.busy = false := by
  rcases exec_cases i s with ⟨code, info, h⟩ | ⟨w, h, -⟩
  · exact ⟨_, h, faultEntry_busy s code info⟩
  · exact ⟨_, h, complete_busy w⟩

theorem engineTurn_ends_not_busy (s : State) : ∃ t, engineTurn s = .next t ∧ t.busy = false := by
  cases hb : s.busy with
  | false => exact ⟨s, engineTurn_of_not_busy hb, hb⟩
  | true =>
    rw [engineTurn_of_busy hb]
    cases hd : decode s.cmd with
    | ok i =>
      rw [completeCommand_of_decode hd]
      exact exec_ends_not_busy i s
    | error e => exact ⟨_, completeCommand_of_illegal hd, faultEntry_busy s _ _⟩

/-- Every event answers a next state: those of the host and the reset by definition. -/
theorem perform_answers (s : State) (e : Event) : ∃ t, perform s e = .next t := by
  cases e with
  | read addr width => exact ⟨readEvent s addr width, rfl⟩
  | write addr width v => exact ⟨writeEvent s addr width v, rfl⟩
  | reset => exact ⟨resetEvent s, rfl⟩
  | engine =>
    obtain ⟨t, ht, -⟩ := engineTurn_ends_not_busy s
    exact ⟨t, ht⟩

/-- Settles O7, by the next event: the engine's turn, scheduled or not, is the one that ends with BUSY = 0. -/
theorem everyStepAnswersAndTheEngineFinishes : Obligations.EveryStepAnswersAndTheEngineFinishes := by
  intro s
  cases hs : s.schedule with
  | nil =>
    obtain ⟨t, ht, hb⟩ := engineTurn_ends_not_busy s
    exact ⟨t, (step_nil hs).trans ht, fun _ => hb⟩
  | cons e rest =>
    by_cases he : e = .engine
    · subst he
      obtain ⟨t, ht, hb⟩ := engineTurn_ends_not_busy { s with schedule := rest }
      exact ⟨t, (step_engine hs).trans ht, fun _ => hb⟩
    · obtain ⟨t, ht⟩ := perform_answers (setSchedule s rest) e
      exact ⟨t, (step_cons hs).trans ht, by simp [he]⟩

/-! ### Acceptance and NOP (R171, R172) -/

/-- Settles O44: CMD is word 3 of the register block, and `writeCmd_eq` is its rule. -/
theorem commandAcceptanceRule : Obligations.CommandAcceptanceRule := fun s v =>
  (busWrite_at_reg s v (k := 3) rfl rfl).trans (writeCmd_eq s v)

/-- Settles O11; the refusal is the acceptance rule at a word that is not ZEROIZE's. -/
theorem nopOnlyCompletes : Obligations.NopOnlyCompletes := by
  refine ⟨rfl, exec_nop, fun s he => ?_⟩
  rw [commandAcceptanceRule s, if_neg]
  simp [he]

/-! ### ZEROIZE (R173) -/

/-- The buffers ZEROIZE clears are all but HM (R50, R173). -/
theorem mem_secretBufs_iff {b : Buf} : b ∈ secretBufs ↔ b ≠ .hm := by
  cases b <;> decide

/-- HM is the last buffer (R66). -/
theorem bufEnd_le_hm {b : Buf} (hb : b ≠ .hm) : bufBase b + bufSize b ≤ bufBase .hm := by
  cases b with
  | hm => exact absurd rfl hb
  | _ => decide

/-- The bytes of the cleared buffers lie below HM, where an unlisted address reads 0 (R51, R173). -/
theorem bufByte_zeroized (s : State) {b : Buf} (hb : b ≠ .hm) {o : Nat} (ho : o < bufSize b) :
    bufByte (zeroized s) b o = 0 := by
  have hin : ∃ c ∈ secretBufs, bufBase c ≤ bufBase b + o ∧ bufBase b + o < bufBase c + bufSize c :=
    ⟨b, mem_secretBufs_iff.2 hb, Nat.le_add_right _ _, Nat.add_lt_add_left ho _⟩
  have hbg : background (bufBase b + o) = some 0 :=
    if_neg (Nat.not_le.2 ((Nat.add_lt_add_left ho _).trans_le (bufEnd_le_hm hb)))
  unfold bufByte
  rw [readByte_of_clearBufs (s := s) (t := zeroized s) (bs := secretBufs) rfl rfl, if_pos hin, hbg,
    Option.getD_some]

theorem readByte_zeroized_of_outside (s : State) {a : Nat}
    (h : ∀ b : Buf, b ≠ .hm → ¬(bufBase b ≤ a ∧ a < bufBase b + bufSize b)) :
    readByte (zeroized s) a = readByte s a := by
  rw [readByte_of_clearBufs (s := s) (t := zeroized s) (bs := secretBufs) rfl rfl, if_neg]
  rintro ⟨b, hb, hin⟩
  exact h b (mem_secretBufs_iff.1 hb) hin

theorem bnArray_zeroized (s : State) (d : BnSel) : bnArray (zeroized s) d = List.replicate (bnCap d) 0 := by
  cases d <;> rfl

/-- Settles O12: `completed` and the named fields are the frame of `zeroized`, seen past the completion. -/
theorem zeroizeClearsEverySecret : Obligations.ZeroizeClearsEverySecret := by
  refine ⟨rfl, fun s => ⟨complete (zeroized s), exec_zeroize s, fun b hb o ho => ?_, fun a ha => ?_,
    fun d w hw => ?_, rfl⟩⟩
  · rw [bufByte_complete, bufByte_zeroized s hb ho]
  · rw [readByte_complete, readByte_zeroized_of_outside s ha]
  · rw [bnArray_complete, bnArray_zeroized] at hw
    exact List.eq_of_mem_replicate hw

end Sys2Proof.Machine
end

/-! ## Faults, their record and the acknowledge (60_exceptions.md) -/

section
namespace Sys2Proof.Machine

/-! ### The fault record (R183, R187) -/

/-- The fault record of `t` is that of `s`. -/
structure FaultRecordKept (s t : State) : Prop where
  err : t.err = s.err
  errCode : t.errCode = s.errCode
  errInfo : t.errInfo = s.errInfo

theorem FaultRecordKept.refl (s : State) : FaultRecordKept s s := ⟨rfl, rfl, rfl⟩

theorem FaultRecordKept.zeroized (s : State) : FaultRecordKept s (zeroized s) := ⟨rfl, rfl, rfl⟩

theorem FaultRecordKept.setBnWord (s : State) (d : BnSel) (i : Nat) (v : Word) :
    FaultRecordKept s (setBnWord s d i v) :=
  ⟨setBnWord_err s d i v, setBnWord_errCode s d i v, setBnWord_errInfo s d i v⟩

section
variable {s t : State} (h : FaultRecordKept s t)
include h

theorem FaultRecordKept.writeBuf (b : Buf) (n : Nat) (f : Nat → Byte) : FaultRecordKept s (writeBuf t b n f) :=
  { h with }

theorem FaultRecordKept.writeBn (d : BnSel) (xs : List Word) : FaultRecordKept s (writeBn t d xs) := by
  cases d with
  | bna => exact { h with }
  | bnb => exact { h with }

theorem FaultRecordKept.setRem (r : Nat) : FaultRecordKept s (setRem t r) := { h with }

theorem FaultRecordKept.setPlen (n : Nat) : FaultRecordKept s (setPlen t n) := { h with }

theorem FaultRecordKept.setPklen (n : Nat) : FaultRecordKept s (setPklen t n) := { h with }

theorem FaultRecordKept.setWeight (n : Nat) : FaultRecordKept s (setWeight t n) := { h with }

theorem FaultRecordKept.complete : FaultRecordKept s (complete t) := { h with }

theorem FaultRecordKept.answer (r : Reply) : FaultRecordKept s (answer t r) := { h with }

end

/-! ### Completion or a precise fault (R181 to R184) -/

/-- A command faults in the state before it, or completes after writes that keep the fault record. -/
theorem exec_faults_or_completes (i : Instr) (s : State) :
    (∃ code info, exec i s = .next (faultEntry s code info)) ∨
    ∃ w, exec i s = .next (complete w) ∧ FaultRecordKept s w := by
  rcases exec_cases i s with hfault | ⟨w, he, hw⟩
  · exact .inl hfault
  · have hs := FaultRecordKept.refl s
    refine .inr ⟨w, he, ?_⟩
    rcases hw with ⟨-, rfl⟩ | ⟨-, rfl⟩ | ⟨-, f, rfl⟩ | ⟨-, g, rfl⟩ | ⟨-, rfl⟩ | ⟨-, rfl⟩ | ⟨v, -, rfl⟩ |
      ⟨-, -, rfl⟩ | ⟨d, xs, -, -, rfl⟩ | ⟨d, src, -, -, rfl⟩ | ⟨-, rfl⟩
    · exact hs
    · exact .zeroized s
    · exact hs.writeBuf _ _ _
    · exact hs.writeBuf _ _ _
    · exact (hs.writeBuf _ _ _).setPklen _
    · exact (hs.writeBuf _ _ _).setPlen _
    · exact hs.setWeight _
    · exact hs.writeBuf _ _ _
    · exact hs.writeBn d xs
    · exact (hs.writeBn d _).setRem _
    · exact ((hs.writeBuf _ _ _).writeBn .bna _).setRem _

/-- Settles O8: the code of a fault is that of its class. -/
theorem everyCommandCompletesOrFaultsPrecisely : Obligations.EveryCommandCompletesOrFaultsPrecisely := by
  intro i s
  rcases exec_faults_or_completes i s with ⟨code, info, he⟩ | ⟨w, he, hrec⟩
  · obtain ⟨hlo, hhi⟩ := errNum_range code
    exact ⟨_, he, .inr ⟨errNum code, info, hlo, hhi, rfl⟩⟩
  · exact ⟨_, he, .inl ⟨rfl, rfl, hrec.err, hrec.errCode, hrec.errInfo⟩⟩

/-! ### The commands without checks (R188) -/

/-- Settles O9: each of the eight completes by definition, so only its writes matter. -/
theorem commandsWithoutChecksAlwaysComplete : Obligations.CommandsWithoutChecksAlwaysComplete := by
  intro s d v k i hi
  have hs := FaultRecordKept.refl s
  have hw : ∃ w, exec i s = .next (complete w) ∧ FaultRecordKept s w := by
    simp only [List.mem_cons, List.not_mem_nil, or_false] at hi
    rcases hi with rfl | rfl | rfl | rfl | rfl | rfl | rfl | rfl
    · exact ⟨_, exec_nop s, hs⟩
    · exact ⟨_, exec_zeroize s, .zeroized s⟩
    · exact ⟨_, exec_piota s, hs.writeBuf _ _ _⟩
    · exact ⟨_, exec_pshuf s, hs.writeBuf _ _ _⟩
    · exact ⟨_, exec_pwt v s, hs.setWeight _⟩
    · exact ⟨_, exec_bnLdh d s, hs.writeBn d _⟩
    · exact ⟨_, exec_bnShrw d k s, hs.writeBn d _⟩
    · exact ⟨_, exec_chal s, ((hs.writeBuf _ _ _).writeBn .bna _).setRem _⟩
  obtain ⟨w, he, hrec⟩ := hw
  exact ⟨_, he, rfl, rfl, hrec.err, hrec.errCode, hrec.errInfo⟩

/-! ### The acknowledge (R186) -/

/-- The acknowledge, field by field: with ERR = 0 it changes nothing. -/
theorem acknowledge_eq (s : State) :
    acknowledge s = { s with err := false, errCode := if s.err then 0 else s.errCode,
                             errInfo := if s.err then 0 else s.errInfo } := by
  unfold acknowledge
  cases he : s.err with
  | true => rfl
  | false => exact congrArg (fun e => { s with err := e }) he

/-- A write to STATUS, field by field (R28, R186). -/
theorem writeStatus_eq (s : State) (v : Word) :
    writeStatus s v = { s with
      done := if v.getLsbD 1 then false else s.done,
      err := if v.getLsbD 2 then false else s.err,
      errCode := if v.getLsbD 2 && s.err then 0 else s.errCode,
      errInfo := if v.getLsbD 2 && s.err then 0 else s.errInfo } := by
  unfold writeStatus
  rw [acknowledge_eq]
  cases v.getLsbD 2 <;> cases v.getLsbD 1 <;> rfl

/-- Settles O45: STATUS is word 4 of the register block. -/
theorem statusWriteAcknowledgesAndClearsDone : Obligations.StatusWriteAcknowledgesAndClearsDone := fun s v =>
  (busWrite_reg s v (k := 4) rfl).trans (congrArg some (writeStatus_eq s v))

/-! ### How long a fault record lasts (R185, R187) -/

theorem FaultRecordKept.writeStatus (s : State) {v : Word} (hv : v.getLsbD 2 = false) :
    FaultRecordKept s (writeStatus s v) := by
  rw [writeStatus_eq, hv]
  exact ⟨rfl, rfl, rfl⟩

/-- The only write that clears the record is one to STATUS with bit 2 set (R186, R187). -/
theorem busWrite_keeps_faultRecord {s t : State} {addr : BitVec 19} {width : Width} {v : Word}
    (h : busWrite s addr width v = some t) (hnoack : addr = 0x00010 → width = .word → v.getLsbD 2 = false) :
    FaultRecordKept s t := by
  rcases busWrite_cases h with ⟨-, -, rfl⟩ | ⟨ha, hw, rfl⟩ | ⟨-, -, rfl⟩ | ⟨-, rfl⟩ | ⟨-, -, rfl⟩ |
    ⟨-, -, rfl⟩ | ⟨-, -, rfl⟩ | ⟨-, -, rfl⟩ | ⟨-, d, i, -, rfl⟩ | ⟨-, b, q, -, -, rfl⟩
  case inr.inl => exact .writeStatus s (hnoack (BitVec.eq_of_toNat_eq ha) hw)
  case inr.inr.inr.inr.inr.inr.inr.inr.inl => exact .setBnWord s d i v
  all_goals exact ⟨rfl, rfl, rfl⟩

/-- In FAULT the engine does not move, and the ZEROIZE accepted there completes without touching the record
(R173, R185). -/
theorem engineTurn_keeps_faultRecord {s t : State} (h : engineTurn s = .next t)
    (hcmd : s.busy = true → s.cmd = 0x00000001) : FaultRecordKept s t := by
  cases hb : s.busy with
  | false =>
    rw [engineTurn_of_not_busy hb] at h
    cases h
    exact .refl s
  | true =>
    have hdec : decode s.cmd = .ok .zeroize := by
      rw [hcmd hb]
      rfl
    rw [engineTurn_of_busy hb, completeCommand_of_decode hdec, exec_zeroize] at h
    cases h
    exact (FaultRecordKept.zeroized s).complete

theorem perform_keeps_faultRecord {s t : State} {e : Event} (h : perform s e = .next t)
    (hcmd : s.busy = true → s.cmd = 0x00000001) (hreset : e ≠ .reset)
    (hnoack : ∀ v, e = .write 0x00010 .word v → v.getLsbD 2 = false) : FaultRecordKept s t := by
  cases e with
  | read addr width =>
    cases h
    exact (FaultRecordKept.refl s).answer _
  | write addr width v =>
    cases h
    unfold writeEvent
    split
    · exact (FaultRecordKept.refl s).answer _
    · next u hu =>
      refine (busWrite_keeps_faultRecord hu ?_).answer _
      rintro rfl rfl
      exact hnoack v rfl
  | reset => exact absurd rfl hreset
  | engine => exact engineTurn_keeps_faultRecord h hcmd

/-- Settles O37, by the next event. -/
theorem faultRecordLastsUntilAcknowledged : Obligations.FaultRecordLastsUntilAcknowledged := by
  intro s t hstep herr hcmd hreset hnoack
  have hrec : FaultRecordKept s t := by
    cases hs : s.schedule with
    | nil =>
      rw [step_nil hs] at hstep
      exact engineTurn_keeps_faultRecord hstep hcmd
    | cons e rest =>
      rw [step_cons hs] at hstep
      have hkept : FaultRecordKept (setSchedule s rest) t := by
        refine perform_keeps_faultRecord hstep hcmd ?_ ?_
        · rintro rfl
          exact hreset rest hs
        · rintro v rfl
          exact hnoack v rest hs
      exact { hkept with }
  exact ⟨hrec.err.trans herr, hrec.errCode, hrec.errInfo⟩

end Sys2Proof.Machine
end

/-! ## Reset (70_reset_and_hazards.md section 1) -/

section
namespace Sys2Proof.Machine

/-- Of the state before it, a reset keeps only what is the model's own: here the schedule is replaced. -/
theorem resetEvent_setSchedule (s : State) (es : List Event) :
    resetEvent (setSchedule s es) =
      { State.reset with resets := s.resets + 1, schedule := es, replies := s.replies } := rfl

/-- A reset takes full effect at once, whatever BUSY and ERR are (R210). -/
theorem perform_reset (s : State) : perform s .reset = .next (resetEvent s) := rfl

/-- Settles O35: `step` takes the reset off the schedule and performs it, with no test of the state. -/
theorem resetInAnyStateGivesTheResetState : Obligations.ResetInAnyStateGivesTheResetState := by
  intro s rest hs
  rw [step_cons hs, perform_reset, resetEvent_setSchedule]

end Sys2Proof.Machine
end
